-- ==== Sys2Proof/Word.lean ====
section
/-! DEFINITION. The word types of the block: bytes of FM, command words, their 12-bit operand fields, 64-bit response
values, and the 3-byte checksum. -/

namespace Sys2Proof

/-- One cell of frame memory (R18). -/
abbrev Byte := BitVec 8

/-- One command word `cw` (R44). -/
abbrev CmdWord := BitVec 32

/-- An operand field `A` or `B` of a command word (R44). -/
abbrev Operand := BitVec 12

/-- The 64 value lines `VAL` of a response (R20). -/
abbrev Value := BitVec 64

/-- A checksum: exactly 3 bytes, `c0` the one that stands first in the stream (R73). -/
structure Checksum where
  c0 : Byte
  c1 : Byte
  c2 : Byte
deriving DecidableEq, Repr, Inhabited

/-- The 3 bytes in stream order. -/
def Checksum.bytes (c : Checksum) : List Byte := [c.c0, c.c1, c.c2]

end Sys2Proof
end

