-- ==== Sys2Proof/Config.lean ====
section
/-! DEFINITION. What is fixed for one block: the parameters `FM_SIZE` and `CK` (R6 to R8), and the free values the spec
leaves open, as constants without a body. -/

namespace Sys2Proof

/-- Which function the parameter `CK` is (R8, R73, D14). `crc24q` is the default of R76, PRESUMED: the spec marks it as general
knowledge. `unspecified` is a function of which only the property R8 and R73 require is known. -/
inductive ChecksumChoice where
  | crc24q
  | unspecified
deriving DecidableEq, Repr

/-- The parameters of one block. They are plain data so that a claim over all states is a claim over all parameters. -/
structure Config where
  /-- `FM_SIZE`, the size of frame memory in bytes (R7). -/
  fmSize : Nat
  /-- Which function `CK` is (R8). -/
  checksum : ChecksumChoice
deriving DecidableEq, Repr

/-- The defaults of R7 and R76. -/
def Config.default : Config := { fmSize := 1029, checksum := .crc24q }

/-- R7: `1 <= FM_SIZE <= 4096`. -/
abbrev Config.wf (c : Config) : Prop := 1 ≤ c.fmSize ∧ c.fmSize ≤ 4096

/-- `WIDTH_MIN` (R6). -/
def Config.widthMin : Nat := 1

/-- `WIDTH_MAX` (R6). -/
def Config.widthMax : Nat := 64

/-- The identity string (R2). -/
def Config.identity : String := "ginan_py-BCU/1"

/-- What the byte at an address holds after power-up, until an `FM_WR` writes it: unspecified (R103, U2). A free value, drawn
once per byte and then stable. DESIGN CHOICE, safe (log entry 5). -/
opaque Config.powerUpByte : Nat → Byte

/-- The sequence with bit `k` of its byte `j` inverted. -/
def flipBit (bytes : List Byte) (j k : Nat) : List Byte := bytes.modify j (· ^^^ BitVec.twoPow 8 k)

/-- The one property required of `CK` (R8, R73): inverting exactly one bit of a byte sequence changes its checksum. -/
def SeesEverySingleBit (ck : List Byte → Checksum) : Prop :=
  ∀ (bytes : List Byte) (j k : Nat), j < bytes.length → k < 8 → ck (flipBit bytes j k) ≠ ck bytes

/-- A function that may be `CK`: total, deterministic, of the bytes and their order alone, and with its required property (R8,
R73, D14). -/
structure AdmissibleChecksum where
  fn : List Byte → Checksum
  seesEverySingleBit : SeesEverySingleBit fn

/-- The XOR of all bytes in the first place of a checksum. It is no instance's `CK`; it only shows that admissible functions
exist. -/
def xorChecksum (bytes : List Byte) : Checksum := { c0 := bytes.foldr (· ^^^ ·) 0, c1 := 0, c2 := 0 }

theorem foldr_xor_flipBit (bytes : List Byte) (j k : Nat) (h : j < bytes.length) :
    (flipBit bytes j k).foldr (· ^^^ ·) 0 = BitVec.twoPow 8 k ^^^ bytes.foldr (· ^^^ ·) 0 := by
  induction bytes generalizing j with
  | nil => simp at h
  | cons b bytes ih =>
    cases j with
    | zero =>
      simp only [flipBit, List.modify_zero_cons, List.foldr_cons]
      rw [BitVec.xor_comm b, BitVec.xor_assoc]
    | succ j =>
      have ih := ih j (by simpa using h)
      simp only [flipBit] at ih
      simp only [flipBit, List.modify_succ_cons, List.foldr_cons, ih]
      rw [← BitVec.xor_assoc, BitVec.xor_comm b, BitVec.xor_assoc]

theorem xorChecksum_seesEverySingleBit : SeesEverySingleBit xorChecksum := by
  intro bytes j k hj hk heq
  have h0 : (flipBit bytes j k).foldr (· ^^^ ·) 0 = bytes.foldr (· ^^^ ·) 0 := congrArg Checksum.c0 heq
  rw [foldr_xor_flipBit bytes j k hj] at h0
  have hbit := congrArg (fun x : Byte => x.getLsbD k) h0
  simp [hk] at hbit

/-- An admissible function, to show that there is one. -/
def AdmissibleChecksum.witness : AdmissibleChecksum := ⟨xorChecksum, xorChecksum_seesEverySingleBit⟩

/-- `CK` when the block's checksum function is left open (R8, R73, U5): some admissible function, and nothing else is known of it. A
free value without a body: its argument only says that the type has a member, and no proof can tell which member it is
(log entry 4). -/
opaque Config.openChecksum [Inhabited AdmissibleChecksum] : AdmissibleChecksum

/-- The open `CK` as a function. -/
def Config.unspecifiedChecksum : List Byte → Checksum := (@Config.openChecksum ⟨.witness⟩).fn

end Sys2Proof
end

