-- ==== Sys2Proof/Syntax.lean ====
section
/-! DEFINITION. The five commands, one constructor for each row of the opcode table (R47). -/

namespace Sys2Proof

/-- A command with its operands, each the unsigned value of its field as it stands (R45, R46). -/
inductive Instr where
  /-- `RDU w`: read `w` bits unsigned (R55). -/
  | rdu (w : Operand)
  /-- `RDI w`: read `w` bits signed (R58). -/
  | rdi (w : Operand)
  /-- `BIND base, len`: bind the window, cursor to bit 0 (R65). -/
  | bind (base len : Operand)
  /-- `POS`: return the cursor (R68). -/
  | pos
  /-- `CHK base, n`: recompute and compare a checksum (R71). -/
  | chk (base n : Operand)
deriving DecidableEq, Repr

end Sys2Proof
end

