-- ==== Sys2Proof/WellFormed.lean ====
section
/-! DEFINITION. The operand checks a legal command passes (R48, R49 cases 4, 6 and 7). -/

namespace Sys2Proof

/-- R49 case 4: a width is legal from 1 to 64. -/
def legalWidth (w : Operand) : Bool := decide (Config.widthMin ≤ w.toNat) && decide (w.toNat ≤ Config.widthMax)

/-- R49 case 6: the window lies inside FM; the sum is formed without wrap-around (R46). -/
def legalWindow (fmSize : Nat) (base len : Operand) : Bool := decide (base.toNat + len.toNat ≤ fmSize)

/-- R49 case 7: the covered bytes and the 3 after them lie inside FM. -/
def legalCover (fmSize : Nat) (base n : Operand) : Bool := decide (base.toNat + n.toNat + 3 ≤ fmSize)

/-- The command is one the block executes when its memory has `fmSize` bytes. -/
def Instr.wellFormed (fmSize : Nat) : Instr → Bool
  | .rdu w => legalWidth w
  | .rdi w => legalWidth w
  | .bind base len => legalWindow fmSize base len
  | .pos => true
  | .chk base n => legalCover fmSize base n

end Sys2Proof
end

