-- ==== Sys2Proof/Decode.lean ====
section
/-! DEFINITION. The decoder, total on command words (R48), which names the case of R49 a word it rejects falls under, and
after it the encoder, written from the same field table (R44, R45, R47). -/

namespace Sys2Proof

/-- Why a word is illegal: the seven cases of R49, in its order. -/
inductive IllegalWord where
  /-- Case 1: `Z != 0`. -/
  | reservedField
  /-- Case 2: `OP` is 0 or 6 to 15. -/
  | opcode
  /-- Case 3: `RDU` or `RDI` with `A != 0`. -/
  | readOperandA
  /-- Case 4: `RDU` or `RDI` with a width outside 1 to 64. -/
  | width
  /-- Case 5: `POS` with `A != 0` or `B != 0`. -/
  | posOperand
  /-- Case 6: `BIND` with `A + B > FM_SIZE`. -/
  | bindRange
  /-- Case 7: `CHK` with `A + B + 3 > FM_SIZE`. -/
  | chkRange
deriving DecidableEq, Repr

/-- What decoding a word gives. -/
inductive Decoded where
  | legal (i : Instr)
  | illegal (why : IllegalWord)
deriving DecidableEq, Repr

/-- `OP = cw[31:28]` (R44). -/
def opField (cw : CmdWord) : BitVec 4 := cw.extractLsb' 28 4

/-- `Z = cw[27:24]` (R44). -/
def zField (cw : CmdWord) : BitVec 4 := cw.extractLsb' 24 4

/-- `A = cw[23:12]` (R44). -/
def aField (cw : CmdWord) : Operand := cw.extractLsb' 12 12

/-- `B = cw[11:0]` (R44). -/
def bField (cw : CmdWord) : Operand := cw.extractLsb' 0 12

/-- The checks of a read command after its opcode, in the order of R48: `A`, then `B`. -/
def decodeRead (ctor : Operand → Instr) (a b : Operand) : Decoded :=
  if a ≠ 0 then .illegal .readOperandA
  else if legalWidth b then .legal (ctor b)
  else .illegal .width

/-- R48: total, and a function of the word and of `FM_SIZE` alone. The checks come in the order `Z`, `OP`, `A`, `B` or the
range sum. -/
def decode (fmSize : Nat) (cw : CmdWord) : Decoded :=
  if zField cw ≠ 0 then .illegal .reservedField
  else
    let a := aField cw
    let b := bField cw
    match (opField cw).toNat with
    | 1 => decodeRead .rdu a b
    | 2 => decodeRead .rdi a b
    | 3 => if legalWindow fmSize a b then .legal (.bind a b) else .illegal .bindRange
    | 4 => if a ≠ 0 ∨ b ≠ 0 then .illegal .posOperand else .legal .pos
    | 5 => if legalCover fmSize a b then .legal (.chk a b) else .illegal .chkRange
    | _ => .illegal .opcode

/-- The command of a legal word. -/
def Decoded.instr? : Decoded → Option Instr
  | .legal i => some i
  | .illegal _ => none

/-- A word from its four fields (R44). -/
def packWord (op z : BitVec 4) (a b : Operand) : CmdWord := op ++ z ++ a ++ b

/-- The word of a command (R45, R47). -/
def encode : Instr → CmdWord
  | .rdu w => packWord 1 0 0 w
  | .rdi w => packWord 2 0 0 w
  | .bind base len => packWord 3 0 base len
  | .pos => packWord 4 0 0 0
  | .chk base n => packWord 5 0 base n

/-- The line of a command in the spec's notation (R52): the mnemonic, then the operands of R45 in decimal. -/
def commandText : Instr → String
  | .rdu w => "RDU " ++ toString w.toNat
  | .rdi w => "RDI " ++ toString w.toNat
  | .bind base len => "BIND " ++ toString base.toNat ++ ", " ++ toString len.toNat
  | .pos => "POS"
  | .chk base n => "CHK " ++ toString base.toNat ++ ", " ++ toString n.toNat

/-- What the decoder reads, for the default `FM_SIZE`, from a word numbered as the opcode table numbers it. A command is one
32-bit word handed over whole (R44, D25), so the table's number is the word. -/
def decodeTableWord (nbits w : Nat) : Option Instr :=
  (decode Config.default.fmSize (BitVec.ofNat 32 (w % 2 ^ nbits))).instr?

end Sys2Proof
end

