-- ==== Sys2Proof/Machine/State.lean ====
section
/-! DEFINITION. The state: the three cursor registers, frame memory, the block's parameters, and the two ports as plain data;
the reasons a step can stop; the state after reset. -/

namespace Sys2Proof.Machine

/-- Frame memory as the list of the cells some `FM_WR` has written, addresses strictly rising. An address without an entry
holds its unspecified power-up value (R103). -/
abbrev Memory := List Host.Cell

/-- A response (R20). No value exists when the status is not `OK` (D7, U1). -/
inductive Response where
  | ok (value : Value)
  | bounds
  | illegal
deriving DecidableEq, Repr

/-- One event of the total order of R38. -/
inductive Event where
  /-- A word arrives on the command port (R21). -/
  | command (cw : CmdWord)
  /-- The host move `FM_WR(a, b)` (R19). -/
  | fmWr (address : Nat) (byte : Byte)
  /-- The host move `RESET` (R102), with the word, if any, that had been handed to the block and not yet answered when it struck. -/
  | reset (inFlight : Option CmdWord)
deriving DecidableEq, Repr

/-- The whole machine. -/
structure State where
  /-- `BASE`: address in FM of byte 0 of the window (R14). -/
  base : BitVec 12
  /-- `LEN`: length of the window in bytes (R15). -/
  len : BitVec 12
  /-- `BITPOS`: stream index of the next bit a read returns (R16). -/
  bitpos : BitVec 15
  /-- `FM` (R18). -/
  fm : Memory
  /-- The parameters `FM_SIZE` and `CK` (R7, R8); the model's own field, changed by nothing (log entries 3 and 4). -/
  cfg : Config
  /-- The events still to happen, oldest first; the model's own field (log entry 1). -/
  inputs : List Event
  /-- The responses delivered on the response port, oldest first; the model's own field, read by no command (log entry 2). -/
  responses : List Response
deriving DecidableEq, Repr

/-- Why the machine stops with a fault. -/
inductive Fault where
  /-- Raised by a read (`RDU`, `RDI`) whose last byte would lie at this address, at or above `FM_SIZE`, where R18 says no byte
  exists. Only from a state that breaks INV1 of R25, which no run reaches. Safe (log entry 8). -/
  | readOutsideFM (address : Nat)
deriving DecidableEq, Repr

/-- Why a step is refused. -/
inductive Refusal where
  /-- Raised by a command that has no meaning in the model. No command is left without one. Safe. -/
  | notModelled (mnemonic : String)
  /-- Raised by the host move `FM_WR` at this address, at or above `FM_SIZE`: R19 gives it no move. Safe (log entry 9). -/
  | hostWriteOutsideFM (address : Nat)
deriving DecidableEq, Repr

/-- R26: the cursor is bound to an empty buffer, nothing of FM is known, the ports are idle. The parameters are the spec's
defaults (R7, R76). -/
def State.reset : State :=
  { base := 0, len := 0, bitpos := 0, fm := [], cfg := Config.default, inputs := [], responses := [] }

end Sys2Proof.Machine
end

