-- ==== Sys2Proof/Machine/Ops.lean ====
section
/-! DEFINITION. The named operations over frame memory, the cursor registers and the response port, and the host's moves. -/

namespace Sys2Proof.Machine

/-- The byte some `FM_WR` has written at an address. -/
def Memory.lookup : Memory → Nat → Option Byte
  | [], _ => none
  | (k, b) :: m, a => if k = a then some b else Memory.lookup m a

/-- `FM[a] <- b`, keeping addresses strictly rising. -/
def Memory.write : Memory → Nat → Byte → Memory
  | [], a, b => [(a, b)]
  | (k, c) :: m, a, b =>
    if a < k then (a, b) :: (k, c) :: m
    else if a = k then (a, b) :: m
    else (k, c) :: Memory.write m a b

/-- Addresses rise strictly, from `low` on. -/
def Memory.risingFrom (low : Nat) : Memory → Bool
  | [] => true
  | (k, _) :: m => decide (low ≤ k) && Memory.risingFrom (k + 1) m

/-- The canonical form: addresses strictly rising, so that two memories the host has written alike are equal data. -/
def Memory.wf (m : Memory) : Bool := Memory.risingFrom 0 m

/-- Every listed address exists in a memory of `fmSize` bytes (R18). -/
def Memory.within (fmSize : Nat) (m : Memory) : Bool := m.all fun c => decide (c.1 < fmSize)

/-- `FM[a]` (R10): the byte last written, or the unspecified power-up value (R38, R103). -/
def State.fmByte (s : State) (a : Nat) : Byte := (s.fm.lookup a).getD (Config.powerUpByte a)

/-- `MemRead(a, n)` (R10): `FM[a], ..., FM[a+n-1]`. -/
def State.memRead (s : State) (a : Nat) : Nat → List Byte
  | 0 => []
  | n + 1 => s.fmByte a :: State.memRead s (a + 1) n

/-- `respond(ST, VAL)` (R10): put one response on the response port. -/
def State.respond (s : State) (r : Response) : State := { s with responses := s.responses ++ [r] }

/-- End a command with its one response. With `.bounds` or `.illegal` it is the block's whole failure mechanism: there is no
trap entry and no return from one, and nothing but the port changes (R88, R94, R95). -/
def State.answer (s : State) (r : Response) : Host.Outcome State Fault Refusal := .next (s.respond r)

/-- `BITPOS <- BITPOS + w` (R55). -/
def State.advance (s : State) (w : Nat) : State := { s with bitpos := BitVec.ofNat 15 (s.bitpos.toNat + w) }

/-- `BASE <- base, LEN <- len, BITPOS <- 0` in one step (R65). -/
def State.bindWindow (s : State) (base len : Operand) : State := { s with base := base, len := len, bitpos := 0 }

/-- The host move `FM_WR(a, b)`: only for an address FM has (R19, U9). -/
def State.hostWrite (s : State) (a : Nat) (b : Byte) : Host.Outcome State Fault Refusal :=
  if a < s.cfg.fmSize then .next { s with fm := s.fm.write a b } else .refused (.hostWriteOutsideFM a)

/-- The host move `RESET`: the three registers are cleared, FM and everything delivered stays, no response (R102, R103). A
command in flight is not answered and has no effect. -/
def State.hostReset (s : State) (_inFlight : Option CmdWord) : State := { s with base := 0, len := 0, bitpos := 0 }

/-- The response delivered last. A command always delivers one, so the default is never met after a command. -/
def State.lastResponse (s : State) : Response := s.responses.getLastD .illegal

end Sys2Proof.Machine
end

