-- ==== Sys2Proof/Machine/ChecksumValidator.lean ====
section
/-! DEFINITION. The checksum function `CK` (R73, R76) and the command `CHK` (R71). -/

namespace Sys2Proof.Machine

/-- The generator polynomial of R76. -/
def crcPolynomial : BitVec 25 := 0x1864CFB#25

/-- One inner step of R76: double, and clear bit 24 by the polynomial when it is set. -/
def crcShift (crc : BitVec 25) : BitVec 25 :=
  let doubled := crc <<< 1
  if doubled.getLsbD 24 then doubled ^^^ crcPolynomial else doubled

/-- `n` inner steps. -/
def crcShifts : Nat → BitVec 25 → BitVec 25
  | 0, crc => crc
  | n + 1, crc => crcShifts n (crcShift crc)

/-- One byte of R76: into bits 23:16, then 8 inner steps. -/
def crcByte (crc : BitVec 25) (b : Byte) : BitVec 25 := crcShifts 8 (crc ^^^ (b.setWidth 25 <<< 16))

/-- The register after a byte sequence, from initial value 0. -/
def crcRegister (bytes : List Byte) : BitVec 25 := bytes.foldl crcByte 0

/-- CRC-24Q (R76): `(crc[23:16], crc[15:8], crc[7:0])`. -/
def crc24q (bytes : List Byte) : Checksum :=
  let crc := crcRegister bytes
  { c0 := crc.extractLsb' 16 8, c1 := crc.extractLsb' 8 8, c2 := crc.extractLsb' 0 8 }

/-- `CK` of a block (R8, R73). -/
def checksumOf (choice : ChecksumChoice) (bytes : List Byte) : Checksum :=
  match choice with
  | .crc24q => crc24q bytes
  | .unspecified => Config.unspecifiedChecksum bytes

/-- The comparison of R71 and R74: bytewise, in stream order, all three equal. -/
def State.checksumMatches (s : State) (base n : Nat) : Bool :=
  let c := checksumOf s.cfg.checksum (s.memRead base n)
  decide (c.c0 = s.fmByte (base + n)) && decide (c.c1 = s.fmByte (base + n + 1)) &&
    decide (c.c2 = s.fmByte (base + n + 2))

/-- `CHK base, n` (R71): the verdict, 1 or 0; a mismatch is no failure (R75). A range that leaves FM answers `ILLEGAL` and reads
nothing (R72). -/
def execChk (base n : Operand) (s : State) : Host.Outcome State Fault Refusal :=
  if (Instr.chk base n).wellFormed s.cfg.fmSize then
    s.answer (.ok (if s.checksumMatches base.toNat n.toNat then 1 else 0))
  else s.answer .illegal

end Sys2Proof.Machine
end

