-- ==== Sys2Proof/Machine/Operands.lean ====
section
/-! DEFINITION. The one addressing mode of the block, the implicit post-incrementing bit cursor (R63): stream bits, assembly of
a field, zero and sign extension. -/

namespace Sys2Proof.Machine

/-- `BufBit(k)` (R10, R30): stream bit `k` of the window, bit `7 - k mod 8` of byte `k div 8`. -/
def State.bufBit (s : State) (k : Nat) : Nat := ((s.fmByte (s.base.toNat + k / 8)).getLsbD (7 - k % 8)).toNat

/-- The `w` stream bits from `p` on, the first the most significant: the loop of R55, `v = 2*v + BufBit(p + i)`. -/
def State.readBits (s : State) (p : Nat) : Nat → Nat
  | 0 => 0
  | w + 1 => 2 * State.readBits s p w + s.bufBit (p + w)

/-- `zext_64(v)` (R10). -/
def zext64 (v : Nat) : Value := BitVec.ofNat 64 v

/-- `sext_64(v, w)` (R10): `v + 2^64 - 2^w` when `v[w-1] = 1`, else `v`. -/
def sext64 (w v : Nat) : Value := BitVec.ofNat 64 (if v.testBit (w - 1) then v + 2 ^ 64 - 2 ^ w else v)

/-- The FM address of the last byte a read of width `w` touches (R33). -/
def State.lastReadAddress (s : State) (w : Nat) : Nat := s.base.toNat + (s.bitpos.toNat + w - 1) / 8

end Sys2Proof.Machine
end

