-- ==== Sys2Proof/Machine/CursorControl.lean ====
section
/-! DEFINITION. The cursor control commands `BIND` (R65) and `POS` (R68). -/

namespace Sys2Proof.Machine

/-- `BIND base, len` (R65); a window that leaves FM answers `ILLEGAL` and the former binding stays (R66). -/
def execBind (base len : Operand) (s : State) : Host.Outcome State Fault Refusal :=
  if (Instr.bind base len).wellFormed s.cfg.fmSize then (s.bindWindow base len).answer (.ok 0) else s.answer .illegal

/-- `POS` (R68). -/
def execPos (s : State) : Host.Outcome State Fault Refusal := s.answer (.ok (zext64 s.bitpos.toNat))

end Sys2Proof.Machine
end

