-- ==== Sys2Proof/Machine/Flags.lean ====
section
/-! DEFINITION. The block has no flags and no condition codes (R22); what stands in their place is the status of a response
(R51) and the bounds check that decides it (R56). -/

namespace Sys2Proof.Machine

/-- The 2-bit code `ST` (R20, R51); `11` is never produced. -/
def Response.status : Response → BitVec 2
  | .ok _ => 0
  | .bounds => 1
  | .illegal => 2

/-- `VAL` where it is defined: only when `ST = OK` (R20). -/
def Response.value? : Response → Option Value
  | .ok v => some v
  | .bounds => none
  | .illegal => none

/-- `rem = 8*LEN - BITPOS`, the bits that remain (R56). -/
def State.bitsRemaining (s : State) : Nat := 8 * s.len.toNat - s.bitpos.toNat

/-- The bounds check of R56: a read fails exactly when `w > rem`. -/
def State.outOfBounds (s : State) (w : Nat) : Bool := decide (s.bitsRemaining < w)

end Sys2Proof.Machine
end

