-- ==== Sys2Proof/Machine/CursorReads.lean ====
section
/-! DEFINITION. The read commands `RDU` (R55) and `RDI` (R58). -/

namespace Sys2Proof.Machine

/-- What the two reads share: the bounds check before any byte is read (R56), the field (R55), the cursor's advance. The fault
stands for a window that leaves FM, which INV1 of R25 rules out (R57). -/
def readField (w : Nat) (extend : Nat → Value) (s : State) : Host.Outcome State Fault Refusal :=
  if s.outOfBounds w then s.answer .bounds
  else if s.cfg.fmSize ≤ s.lastReadAddress w then .fault (.readOutsideFM (s.lastReadAddress w))
  else (s.advance w).answer (.ok (extend (s.readBits s.bitpos.toNat w)))

/-- `RDU w` (R55). A width outside 1 to 64 is no read: it answers `ILLEGAL` before the bounds check (R49 case 4, R93). -/
def execRdu (w : Operand) (s : State) : Host.Outcome State Fault Refusal :=
  if (Instr.rdu w).wellFormed s.cfg.fmSize then readField w.toNat zext64 s else s.answer .illegal

/-- `RDI w` (R58), with the same checks. -/
def execRdi (w : Operand) (s : State) : Host.Outcome State Fault Refusal :=
  if (Instr.rdi w).wellFormed s.cfg.fmSize then readField w.toNat (sext64 w.toNat) s else s.answer .illegal

end Sys2Proof.Machine
end

