-- ==== Sys2Proof/Machine/Dispatch.lean ====
section
/-! DEFINITION. One arm for each command: its meaning. -/

namespace Sys2Proof.Machine

def exec (i : Instr) (s : State) : Host.Outcome State Fault Refusal :=
  match i with
  | .rdu w => Sys2Proof.Machine.execRdu w s
  | .rdi w => Sys2Proof.Machine.execRdi w s
  | .bind base len => Sys2Proof.Machine.execBind base len s
  | .pos => Sys2Proof.Machine.execPos s
  | .chk base n => Sys2Proof.Machine.execChk base n s

end Sys2Proof.Machine
end

