-- ==== Sys2Proof/Machine/Events.lean ====
section
/-! DEFINITION. What one event of the total order does (R38): a command word arriving on the port, or a host move. -/

namespace Sys2Proof.Machine

/-- A command word (R21): decode comes first (R93); a word that fails it answers `ILLEGAL` and changes nothing (R48, R90). -/
def runCommand (cw : CmdWord) (s : State) : Host.Outcome State Fault Refusal :=
  match decode s.cfg.fmSize cw with
  | .legal i => exec i s
  | .illegal _ => s.answer .illegal

/-- One event, atomically (R21, R38). -/
def handleEvent (e : Event) (s : State) : Host.Outcome State Fault Refusal :=
  match e with
  | .command cw => runCommand cw s
  | .fmWr a b => s.hostWrite a b
  | .reset inFlight => .next (s.hostReset inFlight)

/-- Take the next event off the queue and do it. With no event the block is idle and signals nothing (R92; log entry 11). -/
def nextEvent (s : State) : Host.Outcome State Fault Refusal :=
  match s.inputs with
  | [] => .next s
  | e :: rest => handleEvent e { s with inputs := rest }

/-- Make a command word the very next event. -/
def State.offer (s : State) (cw : CmdWord) : State := { s with inputs := .command cw :: s.inputs }

/-- Make a list of host moves or commands the next events, in order. -/
def State.offerAll (s : State) (es : List Event) : State := { s with inputs := es ++ s.inputs }

end Sys2Proof.Machine
end

