-- ==== Sys2Proof/Machine/Step.lean ====
section
/-! DEFINITION. The step: one event of the total order (R38). -/

namespace Sys2Proof.Machine

/-- One step: the next event, or nothing when there is none. -/
def step (s : State) : Host.Outcome State Fault Refusal := nextEvent s

/-- `s` with the table's word as the next command to arrive. The block has no program memory: a word runs when it arrives on the
command port (R17, R21; log entry 1). -/
def State.withFetchWord (s : State) (nbits w : Nat) : State := s.offer (BitVec.ofNat 32 (w % 2 ^ nbits))

end Sys2Proof.Machine
end

