-- ==== Sys2Proof/Machine/Frame.lean ====
section
/-! DEFINITION. The frame data format in so far as the operands of `CHK` and `BIND` are defined by it (R41 to R43), and the host
moves that load bytes into FM (R104 step 1). The block itself looks at no marker and no length (R42, R75). -/

namespace Sys2Proof.Machine

/-- The marker byte (R12, R41). -/
def frameMarker : Byte := 0xD3#8

/-- Marker, six reserved bits that are zero with the top two length bits, the low eight length bits (R41). -/
def frameHeader (payloadLength : BitVec 10) : List Byte :=
  [frameMarker, (0 : BitVec 6) ++ payloadLength.extractLsb' 8 2, payloadLength.extractLsb' 0 8]

/-- The bytes a frame's checksum covers: marker, length bytes, payload (R43, R75). -/
def frameCovered (payload : List Byte) : List Byte := frameHeader (BitVec.ofNat 10 payload.length) ++ payload

/-- A whole frame (R41), its trailer the checksum of the covered bytes. The layout holds a payload of at most 1023 bytes. -/
def frameBytes (choice : ChecksumChoice) (payload : List Byte) : List Byte :=
  frameCovered payload ++ (checksumOf choice (frameCovered payload)).bytes

/-- The host moves that write bytes into FM from an address on, in ascending order. -/
def loadMoves : Nat → List Byte → List Event
  | _, [] => []
  | a, b :: bytes => .fmWr a b :: loadMoves (a + 1) bytes

end Sys2Proof.Machine
end

