-- ==== Sys2Proof/Machine/Requester.lean ====
section
/-! DEFINITION. The requester's side (R53, R80 to R87): the pseudo-commands as programs that issue the five commands and decide
on their responses. Nothing here is the block's; the block cannot tell these from any other sequence of commands. -/

namespace Sys2Proof.Machine

/-- A requester: finished with a result, or about to issue one command and go on by its response. -/
inductive Requester (α : Type) where
  | done (result : α)
  | issue (i : Instr) (next : Response → Requester α)

/-- Let a requester drive the block, one command after another (R107: no other requester between). -/
def Requester.run {α : Type} : Requester α → State → Host.Outcome (State × α) Fault Refusal
  | .done a, s => .next (s, a)
  | .issue i next, s =>
    match exec i s with
    | .next t => Requester.run (next t.lastResponse) t
    | .fault r => .fault r
    | .refused r => .refused r

/-- Issue commands one after another, whatever they answer. -/
def issueAll : List Instr → State → Host.Outcome State Fault Refusal
  | [], s => .next s
  | i :: is, s =>
    match exec i s with
    | .next t => issueAll is t
    | .fault r => .fault r
    | .refused r => .refused r

/-- How a decode ends: with its result, or at the first command that failed, named by its field (R87). A failure keeps no partial
record. R87 leaves that to the requester; keeping none is the model's choice (DESIGN CHOICE, log entry 20). The values of the
fields read before the failure are among `State.responses`. -/
inductive DecodeResult (α : Type) where
  | record (result : α)
  /-- The document's `FieldDecodeError`: a read answered `BOUNDS` (R87, R89). -/
  | fieldDecodeError (field : String)
  /-- A word of the sequence was illegal: the sequence cannot be issued (R83). -/
  | illegalCommand (field : String)
deriving DecidableEq, Repr

/-- Issue one command of a decode: go on with its value, or stop on a failure (R87). -/
def issueField {α : Type} (field : String) (i : Instr) (k : Value → Requester (DecodeResult α)) :
    Requester (DecodeResult α) :=
  .issue i fun r =>
    match r with
    | .ok v => k v
    | .bounds => .done (.fieldDecodeError field)
    | .illegal => .done (.illegalCommand field)

/-- Issue the same command `n` times, collecting the values in order. -/
def issueRepeat {α : Type} (field : String) (i : Instr) :
    Nat → (List Value → Requester (DecodeResult α)) → Requester (DecodeResult α)
  | 0, k => k []
  | n + 1, k => issueField field i fun v => issueRepeat field i n fun vs => k (v :: vs)

/-- A width as a command's operand. -/
def widthOperand (w : Nat) : Operand := BitVec.ofNat 12 w

/-- Byte `j` of the string of `n <= 8` bytes that one read returned: `VAL[8(n-j)-1 : 8(n-1-j)]` (R80). -/
def stringByte (n j : Nat) (v : Value) : Byte := v.extractLsb' (8 * (n - 1 - j)) 8

/-- `RDBYTES n` (R80): one read for up to 8 bytes, else one read a byte. -/
def pseudoRdbytes (n : Nat) : Requester (DecodeResult (List Byte)) :=
  if n ≤ 8 then
    issueField "RDBYTES" (.rdu (widthOperand (8 * n))) fun v =>
      .done (.record ((List.range n).map fun j => stringByte n j v))
  else
    issueRepeat "RDBYTES" (.rdu 8) n fun vs => .done (.record (vs.map fun v => v.setWidth 8))

/-- The widths of the reads of `SKIP n` (R81). -/
def skipWidths (n : Nat) : List Nat :=
  List.replicate (n / 64) 64 ++ (if n % 64 = 0 then [] else [n % 64])

/-- Read and discard fields of the given widths, stopping on `BOUNDS`. -/
def discardFields : List Nat → Requester (DecodeResult Unit)
  | [] => .done (.record ())
  | w :: ws => issueField "SKIP" (.rdu (widthOperand w)) fun _ => discardFields ws

/-- `SKIP n` (R81). -/
def pseudoSkip (n : Nat) : Requester (DecodeResult Unit) := discardFields (skipWidths n)

/-- `TYPECODE base, len` (R82). -/
def pseudoTypecode (base len : Operand) : Requester (DecodeResult Value) :=
  issueField "BIND" (.bind base len) fun _ =>
    issueField "type code" (.rdu 12) fun v => .done (.record v)

/-- A field spec `(name, signed: bool, width_bits: u8)` (R83). -/
structure FieldSpec where
  name : String
  signed : Bool
  widthBits : BitVec 8
deriving DecidableEq, Repr

/-- The command a field spec asks for: `RDI` if signed, else `RDU` (R83). -/
def FieldSpec.command (f : FieldSpec) : Instr :=
  if f.signed then .rdi (f.widthBits.setWidth 12) else .rdu (f.widthBits.setWidth 12)

/-- The bits a list of field specs consumes. -/
def fieldsWidth (desc : List FieldSpec) : Nat := (desc.map fun f => f.widthBits.toNat).sum

/-- `FIELDS desc` followed by `k` (R83): each field in order under its name, stopping on `BOUNDS`. -/
def readFields {α : Type} :
    List FieldSpec → (List (String × Value) → Requester (DecodeResult α)) → Requester (DecodeResult α)
  | [], k => k []
  | f :: fs, k => issueField f.name f.command fun v => readFields fs fun vs => k ((f.name, v) :: vs)

/-- `FIELDS desc` (R83). -/
def pseudoFields (desc : List FieldSpec) : Requester (DecodeResult (List (String × Value))) :=
  readFields desc fun vs => .done (.record vs)

/-- The number of set bits of a mask (R12, R84). -/
def popcount (mask : Value) : Nat := ((List.range 64).filter fun i => mask.getLsbD i).length

/-- A satellite block: 8, 4, 10 and 14 bits, the last signed (R84). -/
structure SatelliteBlock where
  roughRange : Value
  extended : Value
  fraction : Value
  phaseRange : Value
deriving DecidableEq, Repr

/-- A signal block, read as 64 and 16 bits; its subfields are not sized by the source (R85). -/
structure SignalBlock where
  first : Value
  second : Value
deriving DecidableEq, Repr

/-- What a mask-driven decode delivers (R84). -/
structure MaskRecord where
  header : List (String × Value)
  satelliteMask : Value
  signalMask : Value
  cells : List Value
  satellites : List SatelliteBlock
  signals : List SignalBlock
deriving DecidableEq, Repr

/-- Satellite blocks, 36 bits each (R84 step 5). -/
def readSatellites {α : Type} :
    Nat → (List SatelliteBlock → Requester (DecodeResult α)) → Requester (DecodeResult α)
  | 0, k => k []
  | n + 1, k =>
    issueField "rough range" (.rdu 8) fun a =>
    issueField "extended flag" (.rdu 4) fun b =>
    issueField "rough range fraction" (.rdu 10) fun c =>
    issueField "rough phase-range" (.rdi 14) fun d =>
    readSatellites n fun rest => k (⟨a, b, c, d⟩ :: rest)

/-- Signal blocks, 80 bits each (R84, R85). -/
def readSignals {α : Type} :
    Nat → (List SignalBlock → Requester (DecodeResult α)) → Requester (DecodeResult α)
  | 0, k => k []
  | n + 1, k =>
    issueField "signal block" (.rdu 64) fun a =>
    issueField "signal block" (.rdu 16) fun b =>
    readSignals n fun rest => k (⟨a, b⟩ :: rest)

/-- `MASKMSG hdr` (R84): header, both masks, one flag a cell, then exactly as many blocks as the masks have set bits,
whatever the cell flags are (R85 c). -/
def pseudoMaskmsg (hdr : List FieldSpec) : Requester (DecodeResult MaskRecord) :=
  readFields hdr fun header =>
  issueField "satellite_mask" (.rdu 64) fun satelliteMask =>
  issueField "signal_mask" (.rdu 32) fun signalMask =>
  issueRepeat "cell_mask" (.rdu 1) (popcount satelliteMask * popcount signalMask) fun cells =>
  readSatellites (popcount satelliteMask) fun satellites =>
  readSignals (popcount signalMask) fun signals =>
  .done (.record ⟨header, satelliteMask, signalMask, cells, satellites, signals⟩)

/-- `FRAMECHK f, L` (R86): `CHK f, L+3`. -/
def pseudoFramechk (f : Operand) (payloadLength : BitVec 10) : Requester (DecodeResult Value) :=
  issueField "FRAMECHK" (.chk f (payloadLength.setWidth 12 + 3)) fun v => .done (.record v)

/-- How the requester obtains marker, reserved bits and length of a frame at `f` with the cursor (R86). -/
def readFrameHeader (f : Operand) : Requester (DecodeResult (Value × Value × Value)) :=
  issueField "BIND" (.bind f 3) fun _ =>
  issueField "marker" (.rdu 8) fun marker =>
  issueField "reserved" (.rdu 6) fun reserved =>
  issueField "length" (.rdu 10) fun length => .done (.record (marker, reserved, length))

/-- The order of R104 for a frame already loaded at `f`: check it, and only when the verdict is 1 bind a fresh cursor over the
payload (R43) and decode; `none` is the document's checksum mismatch (R91). -/
def decodeFrame (f : Operand) (payloadLength : BitVec 10) (desc : List FieldSpec) :
    Requester (DecodeResult (Option (List (String × Value)))) :=
  issueField "FRAMECHK" (.chk f (payloadLength.setWidth 12 + 3)) fun verdict =>
  if verdict = 1 then
    issueField "BIND" (.bind (f + 3) (payloadLength.setWidth 12)) fun _ =>
    readFields desc fun vs => .done (.record (some vs))
  else .done (.record none)

end Sys2Proof.Machine
end

