-- ==== Sys2Proof/Safety.lean ====
section
/-! DEFINITION. The machine's invariants (R25), the arithmetic forms of a field's value that R30 and R31 give beside the loop of
R55, and the premises the spec asks claims about a program to carry: no illegal word
(R90), every byte read has been written (U2), a window nobody writes into (R106). -/

namespace Sys2Proof.Machine

/-- INV1 of R25: the window lies inside FM. -/
abbrev State.windowInside (s : State) : Prop := s.base.toNat + s.len.toNat ≤ s.cfg.fmSize

/-- INV2 of R25: the cursor lies inside the window. -/
abbrev State.cursorInside (s : State) : Prop := s.bitpos.toNat ≤ 8 * s.len.toNat

/-- What holds in every reachable state: both invariants of R25, the parameter's range (R7), and FM's list in canonical form and
inside FM. -/
abbrev State.Inv (s : State) : Prop :=
  s.cfg.wf ∧ s.windowInside ∧ s.cursorInside ∧ s.fm.wf = true ∧ s.fm.within s.cfg.fmSize = true

/-- The word is answered `ILLEGAL` and nothing else changes (R90). -/
abbrev answersIllegal (cw : CmdWord) (s : State) : Prop :=
  runCommand cw s = .next { s with responses := s.responses ++ [.illegal] }

/-- The host's move that inverts bit `k` of the byte at an address. -/
def State.flipMove (s : State) (a k : Nat) : Event := .fmWr a (s.fmByte a ^^^ BitVec.twoPow 8 k)

/-- Stream bit `k` of the window by division and remainder alone (R9, R30): the claims' form of `BufBit(k)`. -/
def State.streamBit (s : State) (k : Nat) : Nat :=
  (s.fmByte (s.base.toNat + k / 8)).toNat / 2 ^ (7 - k % 8) % 2

/-- R31: the value of the `w` bits from `p` on, `sum over i of BufBit(p + i) * 2^(w-1-i)`. -/
def State.fieldSum (s : State) (p w : Nat) : Nat :=
  ∑ i ∈ Finset.range w, s.streamBit (p + i) * 2 ^ (w - 1 - i)

/-- R31: the unsigned integer whose big-endian base-256 digits are the bytes of the window. -/
def State.windowNumber (s : State) : Nat :=
  ∑ j ∈ Finset.range s.len.toNat, (s.fmByte (s.base.toNat + j)).toNat * 256 ^ (s.len.toNat - 1 - j)

/-- The bits a command consumed by its response: its width when it is a read that answered `OK` (R69). -/
def consumedBits : Instr → Response → Nat
  | .rdu w, .ok _ => w.toNat
  | .rdi w, .ok _ => w.toNat
  | _, _ => 0

/-- Every byte of `FM[a .. a+n-1]` has been written by the host (U2's premise). -/
def State.written (s : State) (a n : Nat) : Bool := (List.range n).all fun i => (s.fm.lookup (a + i)).isSome

/-- No response refused the program that issued the words (R90). -/
def noIllegal (rs : List Response) : Bool := rs.all fun r => r != .illegal

/-- The event writes no byte of `FM[lo .. lo+n-1]` (R106). -/
def Event.sparesRange (lo n : Nat) : Event → Bool
  | .command _ => true
  | .fmWr a _ => decide (a < lo) || decide (lo + n ≤ a)
  | .reset _ => true

/-- Buffer stability (R106): none of the events writes into the range. -/
def stableRange (lo n : Nat) (es : List Event) : Bool := es.all fun e => e.sparesRange lo n

end Sys2Proof.Machine
end

