-- ==== Sys2Proof/Certificates/Slice0/Obligations.lean ====
section
/-! DEFINITION. The statements for the provers. -/

open Sys2Proof Sys2Proof.Machine

/-! ## Encoding (30_encoding.md) -/

/-- R54: the worked encodings, legal and illegal, at the default `FM_SIZE`. -/
def Obligations.WorkedWordsDecode : Prop :=
  (decode 1029 0x1000000C#32 = .legal (.rdu 12) ∧ encode (.rdu 12) = 0x1000000C#32) ∧
  (decode 1029 0x10000040#32 = .legal (.rdu 64) ∧ encode (.rdu 64) = 0x10000040#32) ∧
  (decode 1029 0x2000000E#32 = .legal (.rdi 14) ∧ encode (.rdi 14) = 0x2000000E#32) ∧
  (decode 1029 0x30003005#32 = .legal (.bind 3 5) ∧ encode (.bind 3 5) = 0x30003005#32) ∧
  (decode 1029 0x30000405#32 = .legal (.bind 0 1029) ∧ encode (.bind 0 1029) = 0x30000405#32) ∧
  (decode 1029 0x40000000#32 = .legal .pos ∧ encode .pos = 0x40000000#32) ∧
  (decode 1029 0x50000008#32 = .legal (.chk 0 8) ∧ encode (.chk 0 8) = 0x50000008#32) ∧
  decode 1029 0x00000000#32 = .illegal .opcode ∧
  decode 1029 0x10000000#32 = .illegal .width ∧
  decode 1029 0x10000041#32 = .illegal .width ∧
  decode 1029 0x11000008#32 = .illegal .reservedField ∧
  decode 1029 0x10001008#32 = .illegal .readOperandA ∧
  decode 1029 0x40000001#32 = .illegal .posOperand ∧
  decode 1029 0x60000000#32 = .illegal .opcode

/-- R44, R45, R48: the decoder gives back every well-formed command from its word, whatever `FM_SIZE` is. -/
def Obligations.DecodeOfEncode : Prop :=
  ∀ (fmSize : Nat) (i : Instr), i.wellFormed fmSize = true → decode fmSize (encode i) = .legal i

/-- R47, R48: a legal word is the word of the command it decodes to, and that command is well-formed. -/
def Obligations.EncodeOfDecode : Prop :=
  ∀ (fmSize : Nat) (cw : CmdWord) (i : Instr), decode fmSize cw = .legal i →
    i.wellFormed fmSize = true ∧ encode i = cw

/-- R49: the illegal words are exactly the seven cases, and each is answered `ILLEGAL` with nothing else changed, whatever FM
holds. -/
def Obligations.IllegalWordsAreTheSevenCases : Prop :=
  ∀ (s : State) (cw : CmdWord),
    let op := cw.toNat / 2 ^ 28
    let z := cw.toNat / 2 ^ 24 % 16
    let a := cw.toNat / 2 ^ 12 % 4096
    let b := cw.toNat % 4096
    ((decode s.cfg.fmSize cw).instr? = none ↔
      z ≠ 0 ∨ (op = 0 ∨ 6 ≤ op) ∨ ((op = 1 ∨ op = 2) ∧ a ≠ 0) ∨ ((op = 1 ∨ op = 2) ∧ (b = 0 ∨ 65 ≤ b)) ∨
        (op = 4 ∧ (a ≠ 0 ∨ b ≠ 0)) ∨ (op = 3 ∧ s.cfg.fmSize < a + b) ∨ (op = 5 ∧ s.cfg.fmSize < a + b + 3)) ∧
    ((decode s.cfg.fmSize cw).instr? = none →
      runCommand cw s = .next { s with responses := s.responses ++ [.illegal] })

/-- R47: the match and mask pairs: which words are of which command, that no two patterns share a word, and that the opcodes 0
and 6 to 15 are illegal. -/
def Obligations.OpcodePatterns : Prop :=
  (∀ (fmSize : Nat) (cw : CmdWord),
    ((∃ w, decode fmSize cw = .legal (.rdu w)) ↔
      cw &&& 0xFFFFF000#32 = 0x10000000#32 ∧ 1 ≤ cw.toNat % 4096 ∧ cw.toNat % 4096 ≤ 64) ∧
    ((∃ w, decode fmSize cw = .legal (.rdi w)) ↔
      cw &&& 0xFFFFF000#32 = 0x20000000#32 ∧ 1 ≤ cw.toNat % 4096 ∧ cw.toNat % 4096 ≤ 64) ∧
    ((∃ base len, decode fmSize cw = .legal (.bind base len)) ↔
      cw &&& 0xFF000000#32 = 0x30000000#32 ∧ cw.toNat / 4096 % 4096 + cw.toNat % 4096 ≤ fmSize) ∧
    (decode fmSize cw = .legal .pos ↔ cw &&& 0xFFFFFFFF#32 = 0x40000000#32) ∧
    ((∃ base n, decode fmSize cw = .legal (.chk base n)) ↔
      cw &&& 0xFF000000#32 = 0x50000000#32 ∧ cw.toNat / 4096 % 4096 + cw.toNat % 4096 + 3 ≤ fmSize) ∧
    ((cw.toNat / 2 ^ 28 = 0 ∨ 6 ≤ cw.toNat / 2 ^ 28) → (decode fmSize cw).instr? = none)) ∧
  List.Pairwise (fun p q : CmdWord × CmdWord => ∀ cw : CmdWord, ¬(cw &&& p.2 = p.1 ∧ cw &&& q.2 = q.1))
    [(0x10000000#32, 0xFFFFF000#32), (0x20000000#32, 0xFFFFF000#32), (0x30000000#32, 0xFF000000#32),
      (0x40000000#32, 0xFFFFFFFF#32), (0x50000000#32, 0xFF000000#32)]

/-- R46: every operand is the unsigned value of its field as it stands. -/
def Obligations.OperandsAreTheirFields : Prop :=
  ∀ (fmSize : Nat) (cw : CmdWord),
    (∀ w, decode fmSize cw = .legal (.rdu w) ∨ decode fmSize cw = .legal (.rdi w) → w.toNat = cw.toNat % 4096) ∧
    (∀ a b, decode fmSize cw = .legal (.bind a b) ∨ decode fmSize cw = .legal (.chk a b) →
      a.toNat = cw.toNat / 4096 % 4096 ∧ b.toNat = cw.toNat % 4096)

/-- R20, R51: the status codes, the pattern `11` never produced, and a value only with `OK`. -/
def Obligations.StatusCodes : Prop :=
  (∀ v, (Response.ok v).status = 0#2) ∧ Response.bounds.status = 1#2 ∧ Response.illegal.status = 2#2 ∧
  ∀ r : Response, r.status ≠ 3#2 ∧ (r.value?.isSome = true ↔ r.status = 0#2)

/-! ## The step (10_state.md, 20_memory.md, 70_reset_and_hazards.md) -/

/-- R21: a legal command word at the head of the events runs its command, and nothing else happens in that step. -/
def Obligations.StepRunsTheDecodedCommand : Prop :=
  ∀ (s : State) (cw : CmdWord) (rest : List Event) (i : Instr),
    s.inputs = .command cw :: rest → decode s.cfg.fmSize cw = .legal i →
      step s = exec i { s with inputs := rest }

/-- R90: a word that fails decode answers `ILLEGAL` (code 2), changes no register and no byte, and the same with any other FM. -/
def Obligations.StepAnswersIllegalWords : Prop :=
  Response.illegal.status = 2#2 ∧
  ∀ (s : State) (cw : CmdWord) (rest : List Event) (why : IllegalWord),
    s.inputs = .command cw :: rest → decode s.cfg.fmSize cw = .illegal why →
      ∀ m : Memory, step { s with fm := m } =
        .next { s with fm := m, inputs := rest, responses := s.responses ++ [.illegal] }

/-- R19: `FM_WR(a, b)` sets `FM[a]` and changes nothing else; there is no such move at or above `FM_SIZE`. -/
def Obligations.StepHostWrite : Prop :=
  ∀ (s : State) (a : Nat) (b : Byte) (rest : List Event), s.inputs = .fmWr a b :: rest →
    (a < s.cfg.fmSize → ∃ m : Memory, step s = .next { s with inputs := rest, fm := m } ∧
      ({ s with fm := m } : State).fmByte a = b ∧
      ∀ a', a' ≠ a → ({ s with fm := m } : State).fmByte a' = s.fmByte a') ∧
    (s.cfg.fmSize ≤ a → step s = .refused (.hostWriteOutsideFM a))

/-- R102: `RESET` clears the three registers, answers nothing, and drops a command in flight without effect; FM stays. -/
def Obligations.StepReset : Prop :=
  ∀ (s : State) (inFlight : Option CmdWord) (rest : List Event), s.inputs = .reset inFlight :: rest →
    step s = .next { s with inputs := rest, base := 0, len := 0, bitpos := 0 }

/-- With no event the block is idle and nothing changes. The model's own inference (log entry 11). -/
def Obligations.StepIdle : Prop := ∀ s : State, s.inputs = [] → step s = .next s

/-- R26: what reset leaves, and that every read answers `BOUNDS` until a `BIND` with a non-zero length: no other
event leaves the empty binding. -/
def Obligations.ResetBindsTheEmptyBuffer : Prop :=
  State.reset.base = 0 ∧ State.reset.len = 0 ∧ State.reset.bitpos = 0 ∧ State.reset.responses = [] ∧
  State.reset.inputs = [] ∧ (∀ a, State.reset.fmByte a = Config.powerUpByte a) ∧ State.reset.Inv ∧
  (∀ (s : State) (c : Option CmdWord), (s.hostReset c).fm = s.fm ∧ (s.hostReset c).responses = s.responses ∧
    (s.hostReset c).base = 0 ∧ (s.hostReset c).len = 0 ∧ (s.hostReset c).bitpos = 0) ∧
  ∀ s : State, s.len = 0 → s.bitpos = 0 →
    (∀ w : Operand, 1 ≤ w.toNat → w.toNat ≤ 64 →
      exec (.rdu w) s = .next { s with responses := s.responses ++ [.bounds] } ∧
      exec (.rdi w) s = .next { s with responses := s.responses ++ [.bounds] }) ∧
    ∀ t : State, step s = .next t → (t.len ≠ 0 ∨ t.bitpos ≠ 0) →
      ∃ cw rest base len, s.inputs = .command cw :: rest ∧ decode s.cfg.fmSize cw = .legal (.bind base len) ∧ len ≠ 0

/-! ## The read commands (40_cursor_reads.md, 20_memory.md) -/

/-- R55: `RDU w`, all three statuses, `ILLEGAL` by the word: the value by the sum of R31, zero-extended, and the cursor advanced by `w`; `BOUNDS`;
`ILLEGAL`. -/
def Obligations.RduCompletes : Prop :=
  ∀ (s : State) (w : Operand), (encode (.rdu w)).toNat = 0x10000000 + w.toNat ∧
    (1 ≤ w.toNat → w.toNat ≤ 64 → s.windowInside → s.bitpos.toNat + w.toNat ≤ 8 * s.len.toNat →
      ∃ (p : BitVec 15) (v : Value), p.toNat = s.bitpos.toNat + w.toNat ∧
        v.toNat = s.fieldSum s.bitpos.toNat w.toNat ∧ v.toNat ≤ 2 ^ w.toNat - 1 ∧
        exec (.rdu w) s = .next { s with bitpos := p, responses := s.responses ++ [.ok v] }) ∧
    (1 ≤ w.toNat → w.toNat ≤ 64 → 8 * s.len.toNat < s.bitpos.toNat + w.toNat →
      exec (.rdu w) s = .next { s with responses := s.responses ++ [.bounds] }) ∧
    ∀ cw : CmdWord, cw.toNat / 2 ^ 28 = 1 → (cw.toNat / 2 ^ 24 % 16 ≠ 0 ∨ cw.toNat / 2 ^ 12 % 4096 ≠ 0 ∨
      cw.toNat % 4096 = 0 ∨ 65 ≤ cw.toNat % 4096) → answersIllegal cw s

/-- R58: `RDI w`, all three statuses: as a signed integer the value is `v - 2^w` when the first bit read is 1, else `v`; the bits
above `w-1` copy it. -/
def Obligations.RdiCompletes : Prop :=
  ∀ (s : State) (w : Operand), (encode (.rdi w)).toNat = 0x20000000 + w.toNat ∧
    (1 ≤ w.toNat → w.toNat ≤ 64 → s.windowInside → s.bitpos.toNat + w.toNat ≤ 8 * s.len.toNat →
      ∃ (p : BitVec 15) (v : Value), p.toNat = s.bitpos.toNat + w.toNat ∧
        v.toInt = (s.fieldSum s.bitpos.toNat w.toNat : Int) - 2 ^ w.toNat * (s.streamBit s.bitpos.toNat : Int) ∧
        (∀ k, w.toNat ≤ k → k < 64 → v.getLsbD k = v.getLsbD (w.toNat - 1)) ∧
        -(2 ^ (w.toNat - 1) : Int) ≤ v.toInt ∧ v.toInt ≤ 2 ^ (w.toNat - 1) - 1 ∧
        exec (.rdi w) s = .next { s with bitpos := p, responses := s.responses ++ [.ok v] }) ∧
    (1 ≤ w.toNat → w.toNat ≤ 64 → 8 * s.len.toNat < s.bitpos.toNat + w.toNat →
      exec (.rdi w) s = .next { s with responses := s.responses ++ [.bounds] }) ∧
    ∀ cw : CmdWord, cw.toNat / 2 ^ 28 = 2 → (cw.toNat / 2 ^ 24 % 16 ≠ 0 ∨ cw.toNat / 2 ^ 12 % 4096 ≠ 0 ∨
      cw.toNat % 4096 = 0 ∨ 65 ≤ cw.toNat % 4096) → answersIllegal cw s

/-- R31: the bits the read loop assembles are the sum of R31 and the quotient and remainder of the window's big-endian number; and
the three reads of the bytes `06 40`. -/
def Obligations.FieldIsASliceOfTheWindowNumber : Prop :=
  (∀ (s : State) (p w : Nat), p + w ≤ 8 * s.len.toNat →
    s.readBits p w = s.fieldSum p w ∧
    s.readBits p w = s.windowNumber / 2 ^ (8 * s.len.toNat - p - w) % 2 ^ w) ∧
  ∀ s : State, s.fmByte s.base.toNat = 0x06#8 → s.fmByte (s.base.toNat + 1) = 0x40#8 →
    s.readBits 0 12 = 0x064 ∧ s.readBits 4 8 = 0x64 ∧ s.readBits 0 4 = 0x0

/-- R59: the two reads of one width from one state agree in the low `w` bits and in the cursor, and wholly when the first bit read
is 0 or the width is 64. -/
def Obligations.SignedAndUnsignedReadsAgree : Prop :=
  ∀ (s : State) (w : Operand), 1 ≤ w.toNat → w.toNat ≤ 64 → s.windowInside →
    s.bitpos.toNat + w.toNat ≤ 8 * s.len.toNat →
    ∃ (t u : State) (a b : Value), exec (.rdu w) s = .next t ∧ exec (.rdi w) s = .next u ∧
      t.responses = s.responses ++ [.ok a] ∧ u.responses = s.responses ++ [.ok b] ∧ t.bitpos = u.bitpos ∧
      (∀ k, k < w.toNat → a.getLsbD k = b.getLsbD k) ∧
      (s.streamBit s.bitpos.toNat = 0 ∨ w.toNat = 64 → a = b)

/-- R60: a read that answers `BOUNDS` changes nothing, fails again when repeated, and a narrower read that fits succeeds from the
unchanged cursor. -/
def Obligations.BoundsFailureLeavesTheCursor : Prop :=
  ∀ (s : State) (w : Operand) (i : Instr), s.Inv → 1 ≤ w.toNat → w.toNat ≤ 64 → (i = .rdu w ∨ i = .rdi w) →
    8 * s.len.toNat - s.bitpos.toNat < w.toNat →
    ∃ t, exec i s = .next t ∧ t = { s with responses := s.responses ++ [.bounds] } ∧
      exec i t = .next { t with responses := t.responses ++ [.bounds] } ∧
      ∀ (w' : Operand) (j : Instr), 1 ≤ w'.toNat → w'.toNat ≤ 8 * s.len.toNat - s.bitpos.toNat → w'.toNat ≤ 64 →
        (j = .rdu w' ∨ j = .rdi w') →
        ∃ (u : State) (v : Value), exec j t = .next u ∧ u.responses = t.responses ++ [.ok v] ∧
          u.bitpos.toNat = s.bitpos.toNat + w'.toNat

/-- R61: `BOUNDS` is the only failure of a well-formed read and depends on `w`, `LEN` and `BITPOS` alone, never on the bytes. -/
def Obligations.BoundsDependsOnWidthAndCursorOnly : Prop :=
  ∀ (s : State) (w : Operand) (i : Instr), s.Inv → 1 ≤ w.toNat → w.toNat ≤ 64 → (i = .rdu w ∨ i = .rdi w) →
    ∀ m : Memory, ∃ (t : State) (r : Response), exec i { s with fm := m } = .next t ∧
      t.responses = s.responses ++ [r] ∧ (r = .bounds ∨ ∃ v, r = .ok v) ∧
      (r = .bounds ↔ 8 * s.len.toNat - s.bitpos.toNat < w.toNat)

/-- R57: a read that passes the bounds check ends inside the window and inside FM; where INV1 fails the model stops by name (log
entry 8). -/
def Obligations.ReadsStayInsideTheWindow : Prop :=
  ∀ (s : State) (w : Operand), 1 ≤ w.toNat → w.toNat ≤ 64 → s.bitpos.toNat + w.toNat ≤ 8 * s.len.toNat →
    s.lastReadAddress w.toNat ≤ s.base.toNat + s.len.toNat - 1 ∧
    (s.windowInside → s.lastReadAddress w.toNat ≤ s.cfg.fmSize - 1) ∧
    (s.cfg.fmSize ≤ s.lastReadAddress w.toNat →
      exec (.rdu w) s = .fault (.readOutsideFM (s.lastReadAddress w.toNat)) ∧
      exec (.rdi w) s = .fault (.readOutsideFM (s.lastReadAddress w.toNat)))

/-- R62 (a) to (d): the ranges of the results, the widths 1, 14 and 64, and that the cursor's sum never wraps. -/
def Obligations.ReadResultRanges : Prop :=
  ∀ (s : State) (w : Operand), 1 ≤ w.toNat → w.toNat ≤ 64 → s.windowInside →
    s.bitpos.toNat + w.toNat ≤ 8 * s.len.toNat →
    ∃ (t u : State) (a b : Value), exec (.rdu w) s = .next t ∧ t.responses = s.responses ++ [.ok a] ∧
      exec (.rdi w) s = .next u ∧ u.responses = s.responses ++ [.ok b] ∧
      a.toNat ≤ 2 ^ w.toNat - 1 ∧ -(2 ^ (w.toNat - 1) : Int) ≤ b.toInt ∧ b.toInt ≤ 2 ^ (w.toNat - 1) - 1 ∧
      (w.toNat = 64 → b = a) ∧ (w.toNat = 1 → b.toInt = 0 ∨ b.toInt = -1) ∧
      (w.toNat = 14 → -8192 ≤ b.toInt ∧ b.toInt ≤ 8191) ∧
      t.bitpos.toNat = s.bitpos.toNat + w.toNat ∧ t.bitpos.toNat ≤ 32760

/-- R35: two reads one after the other return the parts of one read of the summed width. -/
def Obligations.ReadsConcatenate : Prop :=
  ∀ (s : State) (w1 w2 : Operand), s.windowInside → 1 ≤ w1.toNat → 1 ≤ w2.toNat → w1.toNat + w2.toNat ≤ 64 →
    s.bitpos.toNat + w1.toNat + w2.toNat ≤ 8 * s.len.toNat →
    ∃ (t1 t2 t : State) (v1 v2 v : Value),
      exec (.rdu w1) s = .next t1 ∧ t1.responses = s.responses ++ [.ok v1] ∧
      exec (.rdu w2) t1 = .next t2 ∧ t2.responses = t1.responses ++ [.ok v2] ∧
      exec (.rdu (w1 + w2)) s = .next t ∧ t.responses = s.responses ++ [.ok v] ∧
      v1.toNat * 2 ^ w2.toNat + v2.toNat = v.toNat ∧
      t2.bitpos.toNat = s.bitpos.toNat + w1.toNat + w2.toNat ∧ t.bitpos = t2.bitpos

/-- R33: a read touches 1 to 9 bytes, and its response depends on no byte of FM outside them. -/
def Obligations.ReadFootprint : Prop :=
  ∀ (s : State) (m : Memory) (w : Operand) (i : Instr), 1 ≤ w.toNat → w.toNat ≤ 64 → s.windowInside →
    s.bitpos.toNat + w.toNat ≤ 8 * s.len.toNat → (i = .rdu w ∨ i = .rdi w) →
    let first := s.base.toNat + s.bitpos.toNat / 8
    let last := s.base.toNat + (s.bitpos.toNat + w.toNat - 1) / 8
    first ≤ last ∧ last - first + 1 ≤ 9 ∧
    ((∀ a, first ≤ a → a ≤ last → ({ s with fm := m } : State).fmByte a = s.fmByte a) →
      ∃ t, exec i s = .next t ∧ exec i { s with fm := m } = .next { t with fm := m })

/-- The frame of `RDU` and `RDI` (R55: writes `BITPOS` only, and only on success). -/
def Obligations.ReadFrame : Prop :=
  ∀ (s t : State) (w : Operand) (i : Instr), (i = .rdu w ∨ i = .rdi w) → exec i s = .next t →
    t.base = s.base ∧ t.len = s.len ∧ t.cfg = s.cfg ∧ t.inputs = s.inputs ∧
    (∀ a, t.fmByte a = s.fmByte a) ∧
    ∃ r, t.responses = s.responses ++ [r] ∧ (r.status ≠ 0 → t.bitpos = s.bitpos)

/-- The model's own choice (log entry 12): a command whose operands no legal word has answers as its word does, in every state. -/
def Obligations.IllFormedCommandsAnswerIllegal : Prop :=
  ∀ (s : State) (i : Instr), i.wellFormed s.cfg.fmSize = false →
    exec i s = .next { s with responses := s.responses ++ [.illegal] } ∧
    (decode s.cfg.fmSize (encode i)).instr? = none ∧ answersIllegal (encode i) s

/-! ## The cursor control commands (41_cursor_control.md) -/

/-- R65, R66: `BIND` sets all three registers and answers 0 when the window lies inside FM, else answers `ILLEGAL` and leaves
them. -/
def Obligations.BindCompletes : Prop :=
  ∀ (s : State) (base len : Operand),
    (encode (.bind base len)).toNat = 0x30000000 + base.toNat * 4096 + len.toNat ∧
    (base.toNat + len.toNat ≤ s.cfg.fmSize →
      exec (.bind base len) s =
        .next { s with base := base, len := len, bitpos := 0, responses := s.responses ++ [.ok 0] }) ∧
    ∀ cw : CmdWord, cw.toNat / 2 ^ 28 = 3 → (cw.toNat / 2 ^ 24 % 16 ≠ 0 ∨
      s.cfg.fmSize < cw.toNat / 2 ^ 12 % 4096 + cw.toNat % 4096) → answersIllegal cw s

/-- R68: `POS` answers the cursor zero-extended, at most `8*LEN <= 32760` inside the invariant, and changes nothing. -/
def Obligations.PosCompletes : Prop :=
  encode .pos = 0x40000000#32 ∧
  ∀ s : State, ∃ v : Value, v.toNat = s.bitpos.toNat ∧
    exec .pos s = .next { s with responses := s.responses ++ [.ok v] } ∧
    (s.cursorInside → v.toNat ≤ 8 * s.len.toNat ∧ v.toNat ≤ 32760) ∧
    ∀ cw : CmdWord, cw.toNat / 2 ^ 28 = 4 → cw.toNat % 2 ^ 28 ≠ 0 → answersIllegal cw s

/-- The frame of `BIND`, `POS` and `CHK`: no byte of FM, and for `POS` and `CHK` no register. -/
def Obligations.ControlAndCheckFrame : Prop :=
  ∀ (s t : State) (i : Instr), (∀ w, i ≠ .rdu w ∧ i ≠ .rdi w) → exec i s = .next t →
    t.cfg = s.cfg ∧ t.inputs = s.inputs ∧ (∀ a, t.fmByte a = s.fmByte a) ∧
    (∃ r, t.responses = s.responses ++ [r] ∧ r ≠ .bounds) ∧
    ((∀ base len, i ≠ .bind base len) → t.base = s.base ∧ t.len = s.len ∧ t.bitpos = s.bitpos)

/-- R69: after a `BIND`, `POS` returns the sum of the widths of the reads that answered `OK`. -/
def Obligations.PosCountsTheBitsConsumed : Prop :=
  ∀ (s : State) (base len : Operand) (reads : List Instr),
    base.toNat + len.toNat ≤ s.cfg.fmSize →
    (∀ i ∈ reads, ∃ w : Operand, 1 ≤ w.toNat ∧ w.toNat ≤ 64 ∧ (i = .rdu w ∨ i = .rdi w)) →
    ∃ (t : State) (answers : List Response) (v : Value), issueAll (.bind base len :: reads) s = .next t ∧
      t.responses = s.responses ++ .ok 0 :: answers ∧ answers.length = reads.length ∧
      exec .pos t = .next { t with responses := t.responses ++ [.ok v] } ∧
      v.toNat = (List.zipWith consumedBits reads answers).sum

/-! ## The checksum validator (42_checksum.md) -/

/-- R71, R72, R74: the verdict of `CHK`, by the covered bytes in ascending order and the three bytes after them; `ILLEGAL` when the
range leaves FM. For any parameter `CK`. -/
def Obligations.ChkCompletes : Prop :=
  ∀ (s : State) (base n : Operand),
    (encode (.chk base n)).toNat = 0x50000000 + base.toNat * 4096 + n.toNat ∧
    (base.toNat + n.toNat + 3 ≤ s.cfg.fmSize →
      exec (.chk base n) s = .next { s with responses := s.responses ++
        [.ok (if (checksumOf s.cfg.checksum ((List.range n.toNat).map fun j => s.fmByte (base.toNat + j))).bytes =
          (List.range 3).map (fun k => s.fmByte (base.toNat + n.toNat + k)) then 1 else 0)] }) ∧
    ∀ cw : CmdWord, cw.toNat / 2 ^ 28 = 5 → (cw.toNat / 2 ^ 24 % 16 ≠ 0 ∨
      s.cfg.fmSize < cw.toNat / 2 ^ 12 % 4096 + cw.toNat % 4096 + 3) → answersIllegal cw s

/-- R78: `CHK` neither reads nor writes the cursor registers, no command changes what a later `CHK` answers, and of all
events only `FM_WR` can. -/
def Obligations.ChkIsIndependentOfTheCursor : Prop :=
  ∀ (s : State) (base n : Operand),
    (∀ (b l : BitVec 12) (p : BitVec 15), ∃ r : Response,
      exec (.chk base n) s = .next { s with responses := s.responses ++ [r] } ∧
      exec (.chk base n) { s with base := b, len := l, bitpos := p } =
        .next { s with base := b, len := l, bitpos := p, responses := s.responses ++ [r] }) ∧
    (∀ (i : Instr) (t : State), exec i s = .next t → ∃ r : Response,
      exec (.chk base n) s = .next { s with responses := s.responses ++ [r] } ∧
      exec (.chk base n) t = .next { t with responses := t.responses ++ [r] }) ∧
    ∀ t : State, step s = .next t → (∀ a b rest, s.inputs ≠ .fmWr a b :: rest) →
      ∃ r : Response, exec (.chk base n) s = .next { s with responses := s.responses ++ [r] } ∧
        exec (.chk base n) t = .next { t with responses := t.responses ++ [r] }

/-- From R73: the verdict depends on the covered bytes and the trailer alone, not on where they stand in FM. -/
def Obligations.ChkIsPositionIndependent : Prop :=
  ∀ (s t : State) (a b n : Operand), s.cfg.checksum = t.cfg.checksum →
    a.toNat + n.toNat + 3 ≤ s.cfg.fmSize → b.toNat + n.toNat + 3 ≤ t.cfg.fmSize →
    (∀ j, j < n.toNat + 3 → s.fmByte (a.toNat + j) = t.fmByte (b.toNat + j)) →
    ∃ v : Value, exec (.chk a n) s = .next { s with responses := s.responses ++ [.ok v] } ∧
      exec (.chk b n) t = .next { t with responses := t.responses ++ [.ok v] }

/-- From R8 and R73: whichever function `CK` is, it is changed by inverting any one bit of the bytes it covers. For the default this is
a fact about CRC-24Q (log entry 4); for the open function it is what the spec lets a model assume. -/
def Obligations.ChecksumSeesEverySingleBit : Prop :=
  ∀ (choice : ChecksumChoice) (bytes : List Byte) (j k : Nat), j < bytes.length → k < 8 →
    checksumOf choice (flipBit bytes j k) ≠ checksumOf choice bytes

/-- From R8, R73 and R71: a range that passes its check fails it once the host has inverted any one bit of its covered bytes, whichever
function `CK` is (log entry 4). -/
def Obligations.SingleBitFlipFailsTheCheck : Prop :=
  ∀ (s : State) (base n : Operand) (j k : Nat) (rest : List Event),
    exec (.chk base n) s = .next { s with responses := s.responses ++ [.ok 1] } → j < n.toNat → k < 8 →
    s.inputs = s.flipMove (base.toNat + j) k :: rest →
    ∃ t, step s = .next t ∧ t.responses = s.responses ∧
      exec (.chk base n) t = .next { t with responses := t.responses ++ [.ok 0] }

/-- From R76: the check values of the default `CK` (PRESUMED by the spec itself, log entry 4). -/
def Obligations.Crc24qCheckValues : Prop :=
  crc24q [0x31, 0x32, 0x33, 0x34, 0x35, 0x36, 0x37, 0x38, 0x39] = ⟨0xCD, 0xE7, 0x03⟩ ∧
  crc24q [] = ⟨0, 0, 0⟩ ∧ crc24q [0x00] = ⟨0, 0, 0⟩ ∧ crc24q [0x01] = ⟨0x86, 0x4C, 0xFB⟩ ∧
  crc24q [0x80] = ⟨0x33, 0x47, 0xA4⟩ ∧ crc24q [0xD3] = ⟨0xE3, 0x33, 0x09⟩ ∧
  crc24q [0xD3, 0x00, 0x00] = ⟨0x47, 0xEA, 0x4B⟩

/-- R77: the default `CK` is linear, changes with any single inverted bit, is zero on zero bytes, and is blind to leading zero
bytes (log entry 4). -/
def Obligations.Crc24qSeesEverySingleBit : Prop :=
  (∀ xs ys : List Byte, xs.length = ys.length →
    crcRegister (List.zipWith (· ^^^ ·) xs ys) = crcRegister xs ^^^ crcRegister ys) ∧
  (∀ (bytes : List Byte) (j k : Nat) (h : j < bytes.length), k < 8 →
    crc24q (bytes.set j (bytes[j] ^^^ BitVec.twoPow 8 k)) ≠ crc24q bytes) ∧
  (∀ n : Nat, crc24q (List.replicate n 0) = ⟨0, 0, 0⟩) ∧
  ∀ (n : Nat) (bytes : List Byte), crc24q (List.replicate n 0 ++ bytes) = crc24q bytes

/-! ## The whole machine (10_state.md, 60_exceptions.md) -/

/-- R25: every step keeps the invariants, from every state that meets them. -/
def Obligations.StepKeepsInv : Prop :=
  ∀ s t : State, s.Inv → step s = .next t → t.Inv

/-- R25: reset establishes the invariants. -/
def Obligations.ResetHasInv : Prop := State.reset.Inv

/-- R93: one command gives one status: `ILLEGAL` when decode fails, else `BOUNDS` when a read finds too few bits, else `OK`; it
never stops. -/
def Obligations.OneCommandGivesOneStatus : Prop :=
  ∀ (s : State) (cw : CmdWord), s.Inv →
    ∃ (t : State) (r : Response), runCommand cw s = .next t ∧ t.responses = s.responses ++ [r] ∧
      (r = .illegal ↔ (decode s.cfg.fmSize cw).instr? = none) ∧
      (r = .bounds ↔ ∃ w : Operand, (decode s.cfg.fmSize cw = .legal (.rdu w) ∨
        decode s.cfg.fmSize cw = .legal (.rdi w)) ∧ 8 * s.len.toNat - s.bitpos.toNat < w.toNat) ∧
      ((∃ v, r = .ok v) ↔ r ≠ .illegal ∧ r ≠ .bounds)

/-- R94: a failed command has had no effect but its response. -/
def Obligations.FailuresArePrecise : Prop :=
  ∀ (s t : State) (cw : CmdWord) (r : Response), runCommand cw s = .next t → t.responses = s.responses ++ [r] →
    r.status ≠ 0 → t = { s with responses := s.responses ++ [r] } ∧
      ∀ m : Memory, runCommand cw { s with fm := m } = .next { t with fm := m }

/-- R95: any number of failures in a row leaves the state where the first found it. -/
def Obligations.RepeatedBoundsLeaveTheState : Prop :=
  ∀ (n : Nat) (s : State) (cw : CmdWord) (w : Operand) (rest : List Event),
    (decode s.cfg.fmSize cw = .legal (.rdu w) ∨ decode s.cfg.fmSize cw = .legal (.rdi w)) →
    8 * s.len.toNat - s.bitpos.toNat < w.toNat → s.inputs = List.replicate n (.command cw) ++ rest →
    Sys2Proof.core.run n s =
      .next ({ s with inputs := rest, responses := s.responses ++ List.replicate n .bounds } : State)

/-- R28: no command writes FM, and `BIND` and `POS` do not read it. -/
def Obligations.NoCommandWritesFrameMemory : Prop :=
  ∀ (s t : State) (cw : CmdWord), runCommand cw s = .next t →
    t.fm = s.fm ∧ (∀ a, t.fmByte a = s.fmByte a) ∧
    ((decode s.cfg.fmSize cw = .legal .pos ∨ ∃ base len, decode s.cfg.fmSize cw = .legal (.bind base len)) →
      ∀ m : Memory, runCommand cw { s with fm := m } = .next { t with fm := m })

/-- R14, R15, R16, R19: who writes what. The cursor falls, and the window changes, only by `BIND` or `RESET`; a byte of FM changes
only by `FM_WR` to its address; a host move answers nothing; no step changes the parameters. -/
def Obligations.OnlyTheNamedEventsWrite : Prop :=
  ∀ s t : State, step s = .next t →
    t.cfg = s.cfg ∧
    (t.bitpos.toNat < s.bitpos.toNat ∨ t.base ≠ s.base ∨ t.len ≠ s.len →
      (∃ c rest, s.inputs = .reset c :: rest) ∨
      ∃ cw rest base len, s.inputs = .command cw :: rest ∧ decode s.cfg.fmSize cw = .legal (.bind base len)) ∧
    (∀ a, t.fmByte a ≠ s.fmByte a → ∃ b rest, s.inputs = .fmWr a b :: rest) ∧
    (t.responses ≠ s.responses → ∃ cw rest, s.inputs = .command cw :: rest)

/-- From R22 and R24: a command's response and what it does to the registers depend on `BASE`, `LEN`, `BITPOS`, the bytes of FM and
the parameters alone: nothing of former commands survives elsewhere. -/
def Obligations.NoHiddenState : Prop :=
  ∀ (s u t : State) (cw : CmdWord), u.base = s.base → u.len = s.len → u.bitpos = s.bitpos → u.cfg = s.cfg →
    (∀ a, u.fmByte a = s.fmByte a) → runCommand cw s = .next t →
    ∃ (t' : State) (r : Response), runCommand cw u = .next t' ∧ t.responses = s.responses ++ [r] ∧
      t'.responses = u.responses ++ [r] ∧ t'.base = t.base ∧ t'.len = t.len ∧ t'.bitpos = t.bitpos

/-- From R38 and R104: bytes the host loads in order are read back, no other byte changes, and the block answers nothing
meanwhile. -/
def Obligations.LoadedBytesReadBack : Prop :=
  ∀ (s : State) (a : Nat) (bytes : List Byte) (rest : List Event),
    s.inputs = loadMoves a bytes ++ rest → a + bytes.length ≤ s.cfg.fmSize →
    ∃ m : Memory, Sys2Proof.core.run bytes.length s = .next ({ s with inputs := rest, fm := m } : State) ∧
      ({ s with fm := m } : State).memRead a bytes.length = bytes ∧
      ({ s with fm := m } : State).written a bytes.length = true ∧
      ∀ a', (a' < a ∨ a + bytes.length ≤ a') → ({ s with fm := m } : State).fmByte a' = s.fmByte a'

/-- From R106 and R38: a write by the host outside the window changes no read's response. -/
def Obligations.WritesOutsideTheWindowAreUnseen : Prop :=
  ∀ (s u t : State) (a : Nat) (b : Byte) (w : Operand) (i : Instr),
    (a < s.base.toNat ∨ s.base.toNat + s.len.toNat ≤ a) → s.hostWrite a b = .next u → (i = .rdu w ∨ i = .rdi w) →
    exec i s = .next t → exec i u = .next { t with fm := u.fm }

/-- R106 and R38: over any number of steps, a range no pending event writes into keeps its bytes. -/
def Obligations.StableRangesKeepTheirBytes : Prop :=
  ∀ (k : Nat) (s t : State) (lo n : Nat), stableRange lo n s.inputs = true → Sys2Proof.core.run k s = .next t →
    ∀ a, lo ≤ a → a < lo + n → t.fmByte a = s.fmByte a

/-- From R90: a program whose every word decodes as legal is never answered `ILLEGAL`, over any number of steps. -/
def Obligations.LegalProgramsSeeNoIllegal : Prop :=
  ∀ (k : Nat) (s t : State), noIllegal s.responses = true →
    (∀ cw, Event.command cw ∈ s.inputs → (decode s.cfg.fmSize cw).instr? ≠ none) →
    Sys2Proof.core.run k s = .next t → noIllegal t.responses = true

/-! ## Requester-side sequences (43_usage_sequences.md) -/

/-- R80: `RDBYTES n` delivers the 8-bit groups of the stream from the cursor on, whether read at once or byte by byte. -/
def Obligations.RdbytesDeliversTheStream : Prop :=
  ∀ (s : State) (n : Nat), s.Inv → 1 ≤ n → s.bitpos.toNat + 8 * n ≤ 8 * s.len.toNat →
    ∃ t : State, (pseudoRdbytes n).run s =
        .next (t, .record ((List.range n).map fun j => BitVec.ofNat 8 (s.fieldSum (s.bitpos.toNat + 8 * j) 8))) ∧
      t.bitpos.toNat = s.bitpos.toNat + 8 * n ∧ t.base = s.base ∧ t.len = s.len ∧ t.fm = s.fm

/-- R81: `SKIP n` advances the cursor by `n`; with too few bits it stops after the whole 64-bit reads that fit. -/
def Obligations.SkipMovesTheCursor : Prop :=
  ∀ (s : State) (n : Nat), s.Inv → 1 ≤ n →
    let rem := 8 * s.len.toNat - s.bitpos.toNat
    ∃ t : State, t.base = s.base ∧ t.len = s.len ∧ t.fm = s.fm ∧
      (n ≤ rem → (pseudoSkip n).run s = .next (t, .record ()) ∧ t.bitpos.toNat = s.bitpos.toNat + n) ∧
      (rem < n → (pseudoSkip n).run s = .next (t, .fieldDecodeError "SKIP") ∧
        t.bitpos.toNat = s.bitpos.toNat + 64 * (rem / 64))

/-- R82: `TYPECODE` returns the first 12 bits of the window, or ends in `BOUNDS` when it has fewer than 2 bytes. -/
def Obligations.TypecodeIsTheFirstTwelveBits : Prop :=
  ∀ (s : State) (base len : Operand), base.toNat + len.toNat ≤ s.cfg.fmSize →
    ∃ t : State, t.base = base ∧ t.len = len ∧ t.fm = s.fm ∧
      (2 ≤ len.toNat → ∃ v : Value, (pseudoTypecode base len).run s = .next (t, .record v) ∧
        v.toNat = 16 * (s.fmByte base.toNat).toNat + (s.fmByte (base.toNat + 1)).toNat / 16 ∧ v.toNat ≤ 4095 ∧
        t.bitpos.toNat = 12) ∧
      (len.toNat < 2 → (pseudoTypecode base len).run s = .next (t, .fieldDecodeError "type code") ∧
        t.bitpos.toNat = 0)

/-- R83: `FIELDS` stores each field under its name in order and consumes the sum of the widths; when they exceed what remains it
stops at the first field that does not fit. -/
def Obligations.FieldsConsumeTheirWidths : Prop :=
  ∀ (s : State) (desc : List FieldSpec), s.Inv →
    (∀ f ∈ desc, 1 ≤ f.widthBits.toNat ∧ f.widthBits.toNat ≤ 64) →
    let rem := 8 * s.len.toNat - s.bitpos.toNat
    (fieldsWidth desc ≤ rem → ∃ (t : State) (record : List (String × Value)),
      (pseudoFields desc).run s = .next (t, .record record) ∧
      record.map Prod.fst = desc.map FieldSpec.name ∧ t.bitpos.toNat = s.bitpos.toNat + fieldsWidth desc) ∧
    (rem < fieldsWidth desc → ∃ (t : State) (before after : List FieldSpec) (f : FieldSpec),
      desc = before ++ f :: after ∧ fieldsWidth before ≤ rem ∧ rem < fieldsWidth before + f.widthBits.toNat ∧
      (pseudoFields desc).run s = .next (t, .fieldDecodeError f.name) ∧
      t.bitpos.toNat = s.bitpos.toNat + fieldsWidth before)

/-- R84 with C2: a mask-driven decode that completes has exactly as many flags and blocks as the masks' population counts say, and
has consumed `hdr + 64 + 32 + nsat*nsig + 36*nsat + 80*nsig` bits. -/
def Obligations.MaskmsgConsumesExactly : Prop :=
  ∀ (s t : State) (hdr : List FieldSpec) (r : MaskRecord), s.Inv →
    (pseudoMaskmsg hdr).run s = .next (t, .record r) →
    let nsat := popcount r.satelliteMask
    let nsig := popcount r.signalMask
    r.cells.length = nsat * nsig ∧ r.satellites.length = nsat ∧ r.signals.length = nsig ∧
    r.header.map Prod.fst = hdr.map FieldSpec.name ∧ nsat ≤ 64 ∧ nsig ≤ 32 ∧
    t.bitpos.toNat = s.bitpos.toNat + (fieldsWidth hdr + 64 + 32 + nsat * nsig + 36 * nsat + 80 * nsig)

/-- R43, R75, R86: a frame of the layout of R41 standing at `f` gives the verdict 1, and the cursor bound over its payload reads the
payload's bytes. For any parameter `CK`. -/
def Obligations.FrameInPlacePassesItsCheck : Prop :=
  ∀ (s : State) (f : Operand) (payload : List Byte), payload.length ≤ 1023 →
    f.toNat + payload.length + 6 ≤ s.cfg.fmSize → s.cfg.wf →
    s.memRead f.toNat (payload.length + 6) = frameBytes s.cfg.checksum payload →
    (pseudoFramechk f (BitVec.ofNat 10 payload.length)).run s =
      .next ({ s with responses := s.responses ++ [.ok 1] }, .record 1) ∧
    ∃ t : State, exec (.bind (f + 3) (BitVec.ofNat 12 payload.length)) s = .next t ∧
      t.memRead t.base.toNat t.len.toNat = payload ∧ t.bitpos = 0

/-- R86 with R41: the marker, the reserved bits and the length a requester reads with the cursor from the first three bytes of a
frame. -/
def Obligations.FrameHeaderIsReadByTheCursor : Prop :=
  ∀ (s : State) (f : Operand), f.toNat + 3 ≤ s.cfg.fmSize →
    ∃ (t : State) (marker reserved length : Value),
      (readFrameHeader f).run s = .next (t, .record (marker, reserved, length)) ∧
      marker.toNat = (s.fmByte f.toNat).toNat ∧ reserved.toNat = (s.fmByte (f.toNat + 1)).toNat / 4 ∧
      length.toNat = (s.fmByte (f.toNat + 1)).toNat % 4 * 256 + (s.fmByte (f.toNat + 2)).toNat ∧
      t.base = f ∧ t.bitpos.toNat = 24 ∧ t.fm = s.fm

/-- R104, R109: the requester that follows the order of R104 decodes a frame exactly when its `CHK` answers 1, and after a mismatch has
bound and read nothing. -/
def Obligations.OnlyCheckedFramesAreDecoded : Prop :=
  ∀ (s t : State) (f : Operand) (payloadLength : BitVec 10) (desc : List FieldSpec)
    (r : Option (List (String × Value))), (decodeFrame f payloadLength desc).run s = .next (t, .record r) →
    (r.isSome = true ↔
      exec (.chk f (payloadLength.setWidth 12 + 3)) s = .next { s with responses := s.responses ++ [.ok 1] }) ∧
    (r = none → t = { s with responses := s.responses ++ [.ok 0] })
end

