-- ==== Sys2Proof/Laws/Memory.lean ====
section
/-! SUPPORT. The laws of frame memory: a read after a write, and that a write keeps the canonical form. -/

namespace Sys2Proof.Machine

theorem Memory.lookup_write_same (m : Memory) (a : Nat) (b : Byte) : (Memory.write m a b).lookup a = some b := by
  induction m with
  | nil => simp [Memory.write, Memory.lookup]
  | cons c m ih =>
    obtain ⟨k, c⟩ := c
    simp only [Memory.write]
    split
    · simp [Memory.lookup]
    · split
      · simp [Memory.lookup]
      · rename_i h
        simp [Memory.lookup, Ne.symm h, ih]

theorem Memory.lookup_write_other (m : Memory) {a a' : Nat} (b : Byte) (h : a' ≠ a) :
    (Memory.write m a b).lookup a' = m.lookup a' := by
  induction m with
  | nil => simp [Memory.write, Memory.lookup, h.symm]
  | cons c m ih =>
    obtain ⟨k, c⟩ := c
    simp only [Memory.write]
    split
    · simp [Memory.lookup, h.symm]
    · split
      · rename_i hk
        simp [Memory.lookup, ← hk, h.symm]
      · simp [Memory.lookup, ih]

theorem Memory.risingFrom_write (m : Memory) (low a : Nat) (b : Byte) (hm : m.risingFrom low = true) (ha : low ≤ a) :
    (Memory.write m a b).risingFrom low = true := by
  induction m generalizing low with
  | nil => simp [Memory.write, Memory.risingFrom, ha]
  | cons c m ih =>
    obtain ⟨k, c⟩ := c
    simp only [Memory.risingFrom, Bool.and_eq_true, decide_eq_true_eq] at hm
    simp only [Memory.write]
    split
    · simp [Memory.risingFrom, hm.2]; omega
    · split
      · rename_i hk
        subst hk
        simp [Memory.risingFrom, hm]
      · simp [Memory.risingFrom, hm.1, ih (k + 1) hm.2 (by omega)]

/-- A write keeps the canonical form. -/
theorem Memory.wf_write (m : Memory) (a : Nat) (b : Byte) (hm : m.wf = true) : (Memory.write m a b).wf = true :=
  Memory.risingFrom_write m 0 a b hm (Nat.zero_le a)

/-- A write to an address of FM lists no address outside FM. -/
theorem Memory.within_write (m : Memory) (size a : Nat) (b : Byte) (hm : m.within size = true) (ha : a < size) :
    (Memory.write m a b).within size = true := by
  induction m with
  | nil => simpa [Memory.write, Memory.within] using ha
  | cons c m ih =>
    obtain ⟨k, c⟩ := c
    simp only [Memory.within, List.all_cons, Bool.and_eq_true, decide_eq_true_eq] at hm ih
    simp only [Memory.write]
    split
    · simp [Memory.within, hm, ha]
    · split
      · simp [Memory.within, hm.2, ha]
      · simp [Memory.within, hm.1, ih hm.2]

/-- Reset's memory has the canonical form. -/
theorem State.reset_fm_wf : State.reset.fm.wf = true := rfl

theorem State.fmByte_write_same (s : State) (a : Nat) (b : Byte) :
    ({ s with fm := s.fm.write a b } : State).fmByte a = b := by
  simp [State.fmByte, Memory.lookup_write_same]

theorem State.fmByte_write_other (s : State) {a a' : Nat} (b : Byte) (h : a' ≠ a) :
    ({ s with fm := s.fm.write a b } : State).fmByte a' = s.fmByte a' := by
  simp [State.fmByte, Memory.lookup_write_other _ b h]

theorem State.memRead_length (s : State) (a n : Nat) : (s.memRead a n).length = n := by
  induction n generalizing a with
  | zero => rfl
  | succ n ih => simp [State.memRead, ih]

/-- `MemRead(a, n)` is `FM[a], ..., FM[a+n-1]` (R10). -/
theorem State.memRead_eq_map (s : State) (a n : Nat) :
    s.memRead a n = (List.range n).map fun j => s.fmByte (a + j) := by
  induction n generalizing a with
  | zero => rfl
  | succ n ih =>
    rw [List.range_succ_eq_map]
    simp [State.memRead, ih, Function.comp_def, Nat.add_assoc, Nat.add_comm 1]

/-- `MemRead` depends on the bytes of its range alone. -/
theorem State.memRead_congr {s t : State} {a b n : Nat} (h : ∀ j, j < n → s.fmByte (a + j) = t.fmByte (b + j)) :
    s.memRead a n = t.memRead b n := by
  rw [State.memRead_eq_map, State.memRead_eq_map]
  exact List.map_congr_left fun j hj => h j (List.mem_range.mp hj)

/-- What FM reads as depends on the list of written cells alone. -/
theorem State.fmByte_of_fm {s t : State} (h : s.fm = t.fm) (a : Nat) : s.fmByte a = t.fmByte a := by
  simp only [State.fmByte, h]

theorem State.memRead_of_fm {s t : State} (h : s.fm = t.fm) (a n : Nat) : s.memRead a n = t.memRead a n :=
  State.memRead_congr fun j _ => State.fmByte_of_fm h (a + j)

/-- Everything the host's write can do. -/
theorem State.hostWrite_next {s t : State} {a : Nat} {b : Byte} (h : s.hostWrite a b = .next t) :
    a < s.cfg.fmSize ∧ t = { s with fm := s.fm.write a b } := by
  unfold State.hostWrite at h
  split at h
  · exact ⟨‹_›, by injection h with h; exact h.symm⟩
  · cases h

end Sys2Proof.Machine
end

