-- ==== Sys2Proof/Laws/Checksum.lean ====
section
/-! SUPPORT. What is known of the open checksum function, and how an inverted bit of FM shows in the bytes read. -/

namespace Sys2Proof

@[simp] theorem length_flipBit (bytes : List Byte) (j k : Nat) : (flipBit bytes j k).length = bytes.length := by
  simp [flipBit]

theorem getElem_flipBit (bytes : List Byte) (j k i : Nat) (h : i < (flipBit bytes j k).length) :
    (flipBit bytes j k)[i] =
      if j = i then bytes[i]'(by simpa using h) ^^^ BitVec.twoPow 8 k else bytes[i]'(by simpa using h) := by
  simp [flipBit, List.getElem_modify]

theorem flipBit_eq_set (bytes : List Byte) (j k : Nat) (h : j < bytes.length) :
    flipBit bytes j k = bytes.set j (bytes[j] ^^^ BitVec.twoPow 8 k) := by
  simp [flipBit, List.modify_eq_set_getElem?, h]

theorem unspecifiedChecksum_seesEverySingleBit : SeesEverySingleBit Config.unspecifiedChecksum :=
  AdmissibleChecksum.seesEverySingleBit _

namespace Machine

/-- Inverting a bit of one byte of FM inverts that bit of the bytes read over it. -/
theorem State.memRead_write_flipped (s : State) (a n j k : Nat) :
    ({ s with fm := s.fm.write (a + j) (s.fmByte (a + j) ^^^ BitVec.twoPow 8 k) } : State).memRead a n =
      flipBit (s.memRead a n) j k := by
  apply List.ext_getElem
  · simp [State.memRead_length]
  · intro i h1 h2
    rw [getElem_flipBit]
    simp only [State.memRead_eq_map, List.getElem_map, List.getElem_range]
    by_cases hij : j = i
    · subst hij
      simpa using State.fmByte_write_same s (a + j) _
    · rw [if_neg hij]
      exact State.fmByte_write_other s _ (by omega)

end Machine

end Sys2Proof
end

