-- ==== Sys2Proof/Laws/State.lean ====
section
/-! SUPPORT. What each update of State leaves in each field, one lemma a field. -/

namespace Sys2Proof.Machine

section Respond
variable (s : State) (r : Response)
@[simp] theorem State.respond_base : (s.respond r).base = s.base := rfl
@[simp] theorem State.respond_len : (s.respond r).len = s.len := rfl
@[simp] theorem State.respond_bitpos : (s.respond r).bitpos = s.bitpos := rfl
@[simp] theorem State.respond_fm : (s.respond r).fm = s.fm := rfl
@[simp] theorem State.respond_cfg : (s.respond r).cfg = s.cfg := rfl
@[simp] theorem State.respond_inputs : (s.respond r).inputs = s.inputs := rfl
@[simp] theorem State.respond_responses : (s.respond r).responses = s.responses ++ [r] := rfl
@[simp] theorem State.respond_lastResponse : (s.respond r).lastResponse = r := by simp [State.lastResponse]
@[simp] theorem State.respond_fmByte (a : Nat) : (s.respond r).fmByte a = s.fmByte a := rfl
end Respond

section Advance
variable (s : State) (w : Nat)
@[simp] theorem State.advance_base : (s.advance w).base = s.base := rfl
@[simp] theorem State.advance_len : (s.advance w).len = s.len := rfl
@[simp] theorem State.advance_fm : (s.advance w).fm = s.fm := rfl
@[simp] theorem State.advance_cfg : (s.advance w).cfg = s.cfg := rfl
@[simp] theorem State.advance_inputs : (s.advance w).inputs = s.inputs := rfl
@[simp] theorem State.advance_responses : (s.advance w).responses = s.responses := rfl
@[simp] theorem State.advance_fmByte (a : Nat) : (s.advance w).fmByte a = s.fmByte a := rfl
end Advance

section BindWindow
variable (s : State) (base len : Operand)
@[simp] theorem State.bindWindow_base : (s.bindWindow base len).base = base := rfl
@[simp] theorem State.bindWindow_len : (s.bindWindow base len).len = len := rfl
@[simp] theorem State.bindWindow_bitpos : (s.bindWindow base len).bitpos = 0 := rfl
@[simp] theorem State.bindWindow_fm : (s.bindWindow base len).fm = s.fm := rfl
@[simp] theorem State.bindWindow_cfg : (s.bindWindow base len).cfg = s.cfg := rfl
@[simp] theorem State.bindWindow_inputs : (s.bindWindow base len).inputs = s.inputs := rfl
@[simp] theorem State.bindWindow_responses : (s.bindWindow base len).responses = s.responses := rfl
@[simp] theorem State.bindWindow_fmByte (a : Nat) : (s.bindWindow base len).fmByte a = s.fmByte a := rfl
end BindWindow

section HostReset
variable (s : State) (c : Option CmdWord)
@[simp] theorem State.hostReset_base : (s.hostReset c).base = 0 := rfl
@[simp] theorem State.hostReset_len : (s.hostReset c).len = 0 := rfl
@[simp] theorem State.hostReset_bitpos : (s.hostReset c).bitpos = 0 := rfl
@[simp] theorem State.hostReset_fm : (s.hostReset c).fm = s.fm := rfl
@[simp] theorem State.hostReset_cfg : (s.hostReset c).cfg = s.cfg := rfl
@[simp] theorem State.hostReset_inputs : (s.hostReset c).inputs = s.inputs := rfl
@[simp] theorem State.hostReset_responses : (s.hostReset c).responses = s.responses := rfl
@[simp] theorem State.hostReset_fmByte (a : Nat) : (s.hostReset c).fmByte a = s.fmByte a := rfl
end HostReset

section Offer
variable (s : State) (cw : CmdWord)
@[simp] theorem State.offer_base : (s.offer cw).base = s.base := rfl
@[simp] theorem State.offer_len : (s.offer cw).len = s.len := rfl
@[simp] theorem State.offer_bitpos : (s.offer cw).bitpos = s.bitpos := rfl
@[simp] theorem State.offer_fm : (s.offer cw).fm = s.fm := rfl
@[simp] theorem State.offer_cfg : (s.offer cw).cfg = s.cfg := rfl
@[simp] theorem State.offer_inputs : (s.offer cw).inputs = .command cw :: s.inputs := rfl
@[simp] theorem State.offer_responses : (s.offer cw).responses = s.responses := rfl
end Offer

end Sys2Proof.Machine
end

