-- ==== Sys2Proof/Laws/Reads.lean ====
section
/-! SUPPORT. The laws of stream bits and of the assembly of a field, and everything the shared read can do. -/

namespace Sys2Proof.Machine

theorem State.bufBit_le_one (s : State) (k : Nat) : s.bufBit k ≤ 1 := by
  unfold State.bufBit
  exact Bool.toNat_le _

/-- A field of `w` bits is below `2^w` (R62 a). -/
theorem State.readBits_lt (s : State) (p w : Nat) : s.readBits p w < 2 ^ w := by
  induction w with
  | zero => simp [State.readBits]
  | succ w ih =>
    have := s.bufBit_le_one (p + w)
    simp only [State.readBits]
    omega

/-- The assembly depends on `BASE` and on the bytes the field touches alone. -/
theorem State.readBits_congr {s t : State} {p w : Nat} (hb : s.base = t.base)
    (h : ∀ k, p ≤ k → k < p + w → s.fmByte (s.base.toNat + k / 8) = t.fmByte (s.base.toNat + k / 8)) :
    s.readBits p w = t.readBits p w := by
  induction w with
  | zero => rfl
  | succ w ih =>
    have hbit : s.bufBit (p + w) = t.bufBit (p + w) := by
      simp only [State.bufBit, ← hb, h (p + w) (by omega) (by omega)]
    simp only [State.readBits, hbit, ih fun k h1 h2 => h k h1 (by omega)]

@[simp] theorem State.respond_readBits (s : State) (r : Response) (p w : Nat) :
    (s.respond r).readBits p w = s.readBits p w := State.readBits_congr rfl fun _ _ _ => rfl

@[simp] theorem State.advance_readBits (s : State) (n p w : Nat) :
    (s.advance n).readBits p w = s.readBits p w := State.readBits_congr rfl fun _ _ _ => rfl

/-- Reading `w1 + w2` bits is reading `w1` and then `w2`: the assembly behind R35. -/
theorem State.readBits_add (s : State) (p w1 w2 : Nat) :
    s.readBits p (w1 + w2) = s.readBits p w1 * 2 ^ w2 + s.readBits (p + w1) w2 := by
  induction w2 with
  | zero => simp [State.readBits]
  | succ w2 ih =>
    rw [← Nat.add_assoc, State.readBits, ih, State.readBits, Nat.pow_succ, Nat.add_assoc p w1 w2]
    ring

@[simp] theorem State.advance_bitpos_toNat (s : State) (w : Nat) (h : s.bitpos.toNat + w ≤ 8 * s.len.toNat) :
    (s.advance w).bitpos.toNat = s.bitpos.toNat + w := by
  have := s.len.isLt
  simp only [State.advance, BitVec.toNat_ofNat]
  omega

/-- Everything the shared read can do, by cases. -/
theorem readField_cases (w : Nat) (extend : Nat → Value) (s : State) :
    (8 * s.len.toNat - s.bitpos.toNat < w ∧ readField w extend s = .next (s.respond .bounds)) ∨
    (w ≤ 8 * s.len.toNat - s.bitpos.toNat ∧ s.cfg.fmSize ≤ s.lastReadAddress w ∧
      readField w extend s = .fault (.readOutsideFM (s.lastReadAddress w))) ∨
    (w ≤ 8 * s.len.toNat - s.bitpos.toNat ∧ s.lastReadAddress w < s.cfg.fmSize ∧
      readField w extend s = .next ((s.advance w).respond (.ok (extend (s.readBits s.bitpos.toNat w))))) := by
  unfold readField State.outOfBounds State.bitsRemaining State.answer
  by_cases h1 : 8 * s.len.toNat - s.bitpos.toNat < w
  · left; simp [h1]
  · right
    by_cases h2 : s.cfg.fmSize ≤ s.lastReadAddress w
    · left; simp [h1, h2]; omega
    · right; simp [h1, h2]; omega

/-- A read that fits the window of a state with INV1 answers `OK` (R56, R57). -/
theorem readField_fits {w : Nat} (extend : Nat → Value) {s : State} (hw : 1 ≤ w)
    (hin : s.base.toNat + s.len.toNat ≤ s.cfg.fmSize) (hfit : s.bitpos.toNat + w ≤ 8 * s.len.toNat) :
    readField w extend s = .next ((s.advance w).respond (.ok (extend (s.readBits s.bitpos.toNat w)))) := by
  rcases readField_cases w extend s with ⟨h, _⟩ | ⟨_, h, _⟩ | ⟨_, _, h⟩
  · omega
  · unfold State.lastReadAddress at h; omega
  · exact h

/-- A read that does not fit answers `BOUNDS` (R56). -/
theorem readField_bounds {w : Nat} (extend : Nat → Value) {s : State}
    (h : 8 * s.len.toNat - s.bitpos.toNat < w) : readField w extend s = .next (s.respond .bounds) := by
  rcases readField_cases w extend s with ⟨_, h'⟩ | ⟨h', _⟩ | ⟨h', _⟩
  · exact h'
  · omega
  · omega

theorem legalWidth_iff (w : Operand) : legalWidth w = true ↔ 1 ≤ w.toNat ∧ w.toNat ≤ 64 := by
  rw [legalWidth, Bool.and_eq_true, decide_eq_true_iff, decide_eq_true_iff]
  rfl

theorem zext64_toNat {v : Nat} (h : v < 2 ^ 64) : (zext64 v).toNat = v := by
  simp only [zext64, BitVec.toNat_ofNat]
  exact Nat.mod_eq_of_lt h

end Sys2Proof.Machine
end

