-- ==== Sys2Proof/Laws/Exec.lean ====
section
/-! SUPPORT. What each command's meaning and each event can do, said once by cases. -/

namespace Sys2Proof.Machine

/-- The two read commands are one shape: an illegal width answers `ILLEGAL`, a legal one is the shared read. -/
theorem exec_rdu (w : Operand) (s : State) :
    exec (.rdu w) s = if legalWidth w then readField w.toNat zext64 s else .next (s.respond .illegal) := rfl

theorem exec_rdi (w : Operand) (s : State) :
    exec (.rdi w) s = if legalWidth w then readField w.toNat (sext64 w.toNat) s else .next (s.respond .illegal) := rfl

theorem exec_bind (base len : Operand) (s : State) :
    exec (.bind base len) s =
      if legalWindow s.cfg.fmSize base len then .next ((s.bindWindow base len).respond (.ok 0))
      else .next (s.respond .illegal) := rfl

theorem exec_pos (s : State) : exec .pos s = .next (s.respond (.ok (zext64 s.bitpos.toNat))) := rfl

theorem exec_chk (base n : Operand) (s : State) :
    exec (.chk base n) s =
      if legalCover s.cfg.fmSize base n then
        .next (s.respond (.ok (if s.checksumMatches base.toNat n.toNat then 1 else 0)))
      else .next (s.respond .illegal) := rfl

/-- Everything a read of a given width can do when it gives a next state: an illegal width answers `ILLEGAL`, a legal one that
does not fit answers `BOUNDS`, one that fits advances the cursor and answers a value. -/
theorem readField_next {w : Operand} {extend : Nat → Value} {s t : State}
    (h : (if legalWidth w then readField w.toNat extend s else .next (s.respond .illegal)) = .next t) :
    (t = s.respond .illegal ∧ legalWidth w = false) ∨
    (legalWidth w = true ∧ 8 * s.len.toNat - s.bitpos.toNat < w.toNat ∧ t = s.respond .bounds) ∨
    (legalWidth w = true ∧ w.toNat ≤ 8 * s.len.toNat - s.bitpos.toNat ∧ s.lastReadAddress w.toNat < s.cfg.fmSize ∧
      ∃ v, t = (s.advance w.toNat).respond (.ok v)) := by
  cases hw : legalWidth w
  · simp only [hw, Bool.false_eq_true, if_false, Host.Outcome.next.injEq] at h
    exact .inl ⟨h.symm, rfl⟩
  · simp only [hw, if_true] at h
    rcases readField_cases w.toNat extend s with ⟨h1, h2⟩ | ⟨_, _, h2⟩ | ⟨h1, h3, h2⟩ <;> rw [h2] at h
    · injection h with h
      exact .inr (.inl ⟨rfl, h1, h.symm⟩)
    · cases h
    · injection h with h
      exact .inr (.inr ⟨rfl, h1, h3, _, h.symm⟩)

/-- Everything a command can do when it gives a next state: fail with a status and change nothing else; read a field; bind; or
answer a value without changing a register. -/
theorem exec_next {i : Instr} {s t : State} (h : exec i s = .next t) :
    (t = s.respond .illegal ∧ i.wellFormed s.cfg.fmSize = false) ∨
    (∃ w, (i = .rdu w ∨ i = .rdi w) ∧ legalWidth w = true ∧ 8 * s.len.toNat - s.bitpos.toNat < w.toNat ∧
      t = s.respond .bounds) ∨
    (∃ w v, (i = .rdu w ∨ i = .rdi w) ∧ legalWidth w = true ∧ w.toNat ≤ 8 * s.len.toNat - s.bitpos.toNat ∧
      s.lastReadAddress w.toNat < s.cfg.fmSize ∧ t = (s.advance w.toNat).respond (.ok v)) ∨
    (∃ base len, i = .bind base len ∧ base.toNat + len.toNat ≤ s.cfg.fmSize ∧
      t = (s.bindWindow base len).respond (.ok 0)) ∨
    (∃ v, (i = .pos ∨ ∃ base n, i = .chk base n) ∧ t = s.respond (.ok v)) := by
  cases i with
  | rdu w =>
    rcases readField_next ((exec_rdu w s).symm.trans h) with h' | ⟨h1, h2, h3⟩ | ⟨h1, h2, h3, v, h4⟩
    · exact .inl h'
    · exact .inr (.inl ⟨w, .inl rfl, h1, h2, h3⟩)
    · exact .inr (.inr (.inl ⟨w, v, .inl rfl, h1, h2, h3, h4⟩))
  | rdi w =>
    rcases readField_next ((exec_rdi w s).symm.trans h) with h' | ⟨h1, h2, h3⟩ | ⟨h1, h2, h3, v, h4⟩
    · exact .inl h'
    · exact .inr (.inl ⟨w, .inr rfl, h1, h2, h3⟩)
    · exact .inr (.inr (.inl ⟨w, v, .inr rfl, h1, h2, h3, h4⟩))
  | bind base len =>
    rw [exec_bind] at h
    split at h
    · rename_i hw
      injection h with h
      exact .inr (.inr (.inr (.inl ⟨base, len, rfl, by simpa [legalWindow] using hw, h.symm⟩)))
    · rename_i hw
      injection h with h
      exact .inl ⟨h.symm, by simpa [Instr.wellFormed] using hw⟩
  | pos =>
    rw [exec_pos] at h
    injection h with h
    exact .inr (.inr (.inr (.inr ⟨_, .inl rfl, h.symm⟩)))
  | chk base n =>
    rw [exec_chk] at h
    split at h
    · injection h with h
      exact .inr (.inr (.inr (.inr ⟨_, .inr ⟨base, n, rfl⟩, h.symm⟩)))
    · rename_i hw
      injection h with h
      exact .inl ⟨h.symm, by simpa [Instr.wellFormed] using hw⟩

/-- Every command that gives a next state delivers exactly one response. -/
theorem exec_one_response {i : Instr} {s t : State} (h : exec i s = .next t) :
    ∃ r, t.responses = s.responses ++ [r] ∧ t.lastResponse = r := by
  rcases exec_next h with ⟨rfl, _⟩ | ⟨w, _, _, _, rfl⟩ | ⟨w, v, _, _, _, _, rfl⟩ | ⟨b, l, _, _, rfl⟩ | ⟨v, _, rfl⟩ <;>
    exact ⟨_, rfl, State.respond_lastResponse _ _⟩

/-- Everything a step can do, by the event at the head of the queue. -/
theorem step_cases (s : State) :
    (s.inputs = [] ∧ step s = .next s) ∨
    (∃ cw rest, s.inputs = .command cw :: rest ∧ step s = runCommand cw { s with inputs := rest }) ∨
    (∃ a b rest, s.inputs = .fmWr a b :: rest ∧ step s = ({ s with inputs := rest } : State).hostWrite a b) ∨
    (∃ c rest, s.inputs = .reset c :: rest ∧ step s = .next (({ s with inputs := rest } : State).hostReset c)) := by
  unfold step nextEvent
  cases h : s.inputs with
  | nil => exact .inl ⟨rfl, rfl⟩
  | cons e rest =>
    cases e with
    | command cw => exact .inr (.inl ⟨cw, rest, rfl, rfl⟩)
    | fmWr a b => exact .inr (.inr (.inl ⟨a, b, rest, rfl, rfl⟩))
    | reset c => exact .inr (.inr (.inr ⟨c, rest, rfl, rfl⟩))

/-- A command word either runs the command it decodes to or answers `ILLEGAL`. -/
theorem runCommand_cases (cw : CmdWord) (s : State) :
    (∃ i, decode s.cfg.fmSize cw = .legal i ∧ runCommand cw s = exec i s) ∨
    (∃ why, decode s.cfg.fmSize cw = .illegal why ∧ runCommand cw s = .next (s.respond .illegal)) := by
  unfold runCommand
  cases h : decode s.cfg.fmSize cw with
  | legal i => exact .inl ⟨i, rfl, rfl⟩
  | illegal why => exact .inr ⟨why, rfl, rfl⟩

/-- A run whose first step gives a next state goes on from it. -/
theorem run_succ_of_step {s t : State} (n : Nat) (h : step s = .next t) :
    Sys2Proof.core.run (n + 1) s = Sys2Proof.core.run n t := by
  have h' : Sys2Proof.core.step s = .next t := h
  simp only [Host.Core.run, h']

end Sys2Proof.Machine
end

