-- ==== Sys2Proof/Laws/PerInstr.lean ====
section
/-! SUPPORT. Statements for every command, one lemma a constructor. -/

namespace Sys2Proof.Laws.EncodedFields

/-- The `OP` value of a command (R47). -/
def opcodeOf : Instr → BitVec 4
  | .rdu _ => 1
  | .rdi _ => 2
  | .bind _ _ => 3
  | .pos => 4
  | .chk _ _ => 5

/-- What stands in field `A` (R45). -/
def operandA : Instr → Operand
  | .rdu _ => 0
  | .rdi _ => 0
  | .bind base _ => base
  | .pos => 0
  | .chk base _ => base

/-- What stands in field `B` (R45). -/
def operandB : Instr → Operand
  | .rdu w => w
  | .rdi w => w
  | .bind _ len => len
  | .pos => 0
  | .chk _ n => n

/-- The four fields of a packed word are the ones it was packed from (R44). -/
theorem packWord_fields (op z : BitVec 4) (a b : Operand) :
    opField (packWord op z a b) = op ∧ zField (packWord op z a b) = z ∧ aField (packWord op z a b) = a ∧
      bField (packWord op z a b) = b := by
  refine ⟨?_, ?_, ?_, ?_⟩ <;> apply BitVec.eq_of_getLsbD_eq <;> intro k hk <;>
    simp only [opField, zField, aField, bField, packWord, BitVec.getLsbD_extractLsb', BitVec.getLsbD_append]
  · have h1 : ¬ 28 + k < 12 := by omega
    have h2 : ¬ 28 + k - 12 < 12 := by omega
    have h3 : ¬ 28 + k - 12 - 12 < 4 := by omega
    simp only [hk, h1, h2, h3, decide_true, Bool.true_and, if_false]
    congr 1; omega
  · have h1 : ¬ 24 + k < 12 := by omega
    have h2 : ¬ 24 + k - 12 < 12 := by omega
    have h3 : 24 + k - 12 - 12 < 4 := by omega
    simp only [hk, h1, h2, h3, decide_true, Bool.true_and, if_false, if_true]
    congr 1; omega
  · have h1 : ¬ 12 + k < 12 := by omega
    have h2 : 12 + k - 12 < 12 := by omega
    simp only [hk, h1, h2, decide_true, Bool.true_and, if_false, if_true]
    congr 1; omega
  · have h1 : 0 + k < 12 := by omega
    simp only [hk, h1, decide_true, Bool.true_and, if_true]
    congr 1; omega

/-- The word of a command has its opcode, a zero `Z`, and its operands in their fields (R44, R45, R47). -/
def Statement (i : Instr) : Prop :=
  opField (encode i) = opcodeOf i ∧ zField (encode i) = 0 ∧ aField (encode i) = operandA i ∧
    bField (encode i) = operandB i

theorem rdu (w : Operand) : Statement (.rdu w) := packWord_fields 1 0 0 w
theorem rdi (w : Operand) : Statement (.rdi w) := packWord_fields 2 0 0 w
theorem bind (base len : Operand) : Statement (.bind base len) := packWord_fields 3 0 base len
theorem pos : Statement .pos := packWord_fields 4 0 0 0
theorem chk (base n : Operand) : Statement (.chk base n) := packWord_fields 5 0 base n

end Sys2Proof.Laws.EncodedFields
end

