-- ==== Sys2Proof/Tests/Slice0.lean ====
section
/-! SUPPORT. The model's own tests: well-formedness, decoding, one step of each command, and for every statement with hypotheses
a concrete state that meets them. Expected values are those of 95_test_vectors.md, whose row each test names. -/

namespace Sys2Proof.Machine.Tests

/-! ## Helpers -/

/-- Cells from an address on. -/
def cells : Nat → List Byte → Memory
  | _, [] => []
  | a, b :: bytes => (a, b) :: cells (a + 1) bytes

/-- The state `(base, len, bitpos)` with bytes loaded from address 0. -/
def atState (base len bitpos : Nat) (bytes : List Byte) : State :=
  { State.reset with
    base := BitVec.ofNat 12 base, len := BitVec.ofNat 12 len, bitpos := BitVec.ofNat 15 bitpos, fm := cells 0 bytes }

/-- The next state, where there is one. -/
def next? {α : Type} : Host.Outcome α Fault Refusal → Option α
  | .next s => some s
  | .fault _ => none
  | .refused _ => none

/-- The three registers and the response of one command. -/
def seen (o : Host.Outcome State Fault Refusal) : Option (Nat × Nat × Nat × List Response) :=
  (next? o).map fun t => (t.base.toNat, t.len.toNat, t.bitpos.toNat, t.responses)

theorem next?_eq_some {α : Type} {o : Host.Outcome α Fault Refusal} (h : (next? o).isSome = true) : ∃ t, o = .next t := by
  cases o <;> simp_all [next?]

/-- The run ended with a decoded result. -/
def decoded {α : Type} (o : Host.Outcome (State × DecodeResult α) Fault Refusal) : Bool :=
  match next? o with
  | some (_, .record _) => true
  | _ => false

theorem decoded_eq_true {α : Type} {o : Host.Outcome (State × DecodeResult α) Fault Refusal} (h : decoded o = true) :
    ∃ t r, o = .next (t, .record r) := by
  cases o with
  | next p =>
    obtain ⟨t, r⟩ := p
    cases r <;> simp_all [decoded, next?]
  | fault r => simp [decoded, next?] at h
  | refused r => simp [decoded, next?] at h

/-- `FM[0..8]` of section 2.2. -/
def nineBytes : List Byte := [0x01, 0x23, 0x45, 0x67, 0x89, 0xAB, 0xCD, 0xEF, 0x5A]

/-- The document's Scenario A payload (V1). -/
def scenarioA : List Byte := [0x06, 0x40, 0x00, 0xC8, 0x0A]

/-- The frame of row K1. -/
def goodFrame : List Byte := [0xD3, 0x00, 0x05, 0x06, 0x40, 0x00, 0x00, 0x28, 0x9E, 0x4E, 0xCE]

/-- Row K2: one payload bit inverted. -/
def badFrame : List Byte := [0xD3, 0x00, 0x05, 0x07, 0x40, 0x00, 0x00, 0x28, 0x9E, 0x4E, 0xCE]

/-- The payload of program P3, 33 bytes. -/
def maskPayload : List Byte :=
  [0x0C, 0x89, 0x00, 0x00, 0x00, 0x00, 0x00, 0x00, 0x00, 0x04, 0x00] ++
  [0x00, 0x00, 0x09, 0x35, 0x60, 0x18, 0x00, 0x3F, 0xFF, 0xFF, 0x7F] ++
  [0xFC, 0x04, 0x8D, 0x15, 0x9E, 0x26, 0xAF, 0x37, 0xBE, 0xFB, 0xBC]

/-- The layout of Scenario A (V1). -/
def scenarioFields : List FieldSpec :=
  [⟨"type", false, 12⟩, ⟨"station_id", false, 12⟩, ⟨"value", true, 14⟩]

/-! ## Well-formedness: each check refuses an ill-formed command -/

theorem test_illformed_rdu_width_zero : (Instr.rdu 0).wellFormed 1029 = false := by decide

theorem test_illformed_rdi_width_65 : (Instr.rdi 65).wellFormed 1029 = false := by decide

theorem test_illformed_bind_past_memory : (Instr.bind 0 1030).wellFormed 1029 = false := by decide

theorem test_illformed_chk_past_memory : (Instr.chk 0 1027).wellFormed 1029 = false := by decide

/-! ## Decoding: rows E1 to E30 -/

theorem test_decode_rdu : decode 1029 0b00010000000000000000000000001100#32 = .legal (.rdu 12) := by decide

theorem test_decode_rdi : decode 1029 0b00100000000000000000000000001110#32 = .legal (.rdi 14) := by decide

theorem test_decode_bind : decode 1029 0b00110000000000000011000000000101#32 = .legal (.bind 3 5) := by decide

theorem test_decode_pos : decode 1029 0b01000000000000000000000000000000#32 = .legal .pos := by decide

theorem test_decode_chk : decode 1029 0b01010000000000010100000000000000#32 = .legal (.chk 20 0) := by decide

theorem test_decode_illegal :
    decode 1029 0x38000000#32 = .illegal .reservedField ∧ decode 1029 0xFFFFFFFF#32 = .illegal .reservedField ∧
    decode 1029 0xF0000000#32 = .illegal .opcode ∧ decode 1029 0x10001008#32 = .illegal .readOperandA ∧
    decode 1029 0x20000FFF#32 = .illegal .width ∧ decode 1029 0x40001000#32 = .illegal .posOperand ∧
    decode 1029 0x30406000#32 = .illegal .bindRange ∧ decode 1029 0x50000403#32 = .illegal .chkRange := by decide

theorem test_command_text : commandText (.bind 3 5) = "BIND 3, 5" ∧ commandText (.rdu 12) = "RDU 12" := by decide

/-! ## One step of each command -/

/-- S3: 64 bits from bit 3, over 9 bytes. -/
theorem test_rdu_unaligned_64 :
    seen (exec (.rdu 64) (atState 0 9 3 nineBytes)) = some (0, 9, 67, [.ok 0x091A2B3C4D5E6F7A#64]) := by decide +kernel

/-- S16: one bit too many. -/
theorem test_rdu_bounds : seen (exec (.rdu 5) (atState 0 2 12 nineBytes)) = some (0, 2, 12, [.bounds]) := by decide

/-- P1 (a) step 4, and 90_conflicts.md C1: the contract's -3582, not the document's literal. -/
theorem test_rdi_scenario_a :
    seen (exec (.rdi 14) (atState 0 5 24 scenarioA)) = some (0, 5, 38, [.ok (BitVec.ofInt 64 (-3582))]) := by decide +kernel

/-- S5: the 14-bit minimum. -/
theorem test_rdi_minimum :
    seen (exec (.rdi 14) (atState 0 2 0 [0x80, 0x00])) = some (0, 2, 14, [.ok 0xFFFFFFFFFFFFE000#64]) := by decide +kernel

/-- B5: an empty window at the end of FM. -/
theorem test_bind_at_the_end :
    seen (exec (.bind 1029 0) (atState 3 5 17 nineBytes)) = some (1029, 0, 0, [.ok 0]) := by decide

/-- B3: a window that leaves FM; the binding stays. -/
theorem test_bind_refused : seen (exec (.bind 0 1030) (atState 3 5 17 nineBytes)) = some (3, 5, 17, [.illegal]) := by decide

/-- B6. -/
theorem test_pos : seen (exec .pos (atState 3 5 17 nineBytes)) = some (3, 5, 17, [.ok 17]) := by decide

/-- K13: the verdict 1, the cursor left alone. -/
theorem test_chk_match : seen (exec (.chk 0 8) (atState 3 5 17 goodFrame)) = some (3, 5, 17, [.ok 1]) := by decide +kernel

/-- K2: one payload bit inverted. -/
theorem test_chk_mismatch : seen (exec (.chk 0 8) (atState 0 0 0 badFrame)) = some (0, 0, 0, [.ok 0]) := by decide +kernel

/-- R19. -/
theorem test_host_write :
    (next? (step ((atState 3 5 17 nineBytes).offerAll [.fmWr 8 0xA5]))).map (fun t => (t.fmByte 8, t.fmByte 7, t.responses)) =
      some (0xA5, 0xEF, []) := by decide

/-- R102: no response, the command in flight dropped. -/
theorem test_reset_move :
    seen (step ((atState 3 5 17 nineBytes).offerAll [.reset (some 0x40000000#32)])) = some (0, 0, 0, []) := by decide

/-- S22: an illegal word is `ILLEGAL`, not `BOUNDS`, at the head of the port after reset. -/
theorem test_illegal_word :
    seen (step (State.reset.withFetchWord 32 0x10000041)) = some (0, 0, 0, [.illegal]) := by decide

/-- S18: a legal read right after reset. -/
theorem test_first_read_after_reset :
    decodeTableWord 32 0x10000001 = some (.rdu 1) ∧
    seen (step (State.reset.withFetchWord 32 0x10000001)) = some (0, 0, 0, [.bounds]) := by decide

/-! ## Witnesses: for each statement with hypotheses, a concrete case that meets them, clause by clause -/

/-- Each constructor, at the ends of its operands' ranges. -/
theorem witness_DecodeOfEncode :
    (Instr.rdu 1).wellFormed 1029 = true ∧ (Instr.rdu 64).wellFormed 1029 = true ∧ (Instr.rdi 1).wellFormed 1029 = true ∧
    (Instr.rdi 64).wellFormed 1029 = true ∧ (Instr.bind 0 1029).wellFormed 1029 = true ∧
    (Instr.bind 1029 0).wellFormed 1029 = true ∧ Instr.pos.wellFormed 1029 = true ∧
    (Instr.chk 0 1026).wellFormed 1029 = true ∧ (Instr.chk 1026 0).wellFormed 1029 = true := by decide

theorem witness_EncodeOfDecode :
    decode 1029 0x10000040#32 = .legal (.rdu 64) ∧ decode 1029 0x20000001#32 = .legal (.rdi 1) ∧
    decode 1029 0x30000405#32 = .legal (.bind 0 1029) ∧ decode 1029 0x40000000#32 = .legal .pos ∧
    decode 1029 0x50000402#32 = .legal (.chk 0 1026) := by decide

/-- One word of each of the seven cases. -/
theorem witness_IllegalWordsAreTheSevenCases :
    (decode 1029 0x11000008#32).instr? = none ∧ (decode 1029 0x00000000#32).instr? = none ∧
    (decode 1029 0x10001008#32).instr? = none ∧ (decode 1029 0x10000000#32).instr? = none ∧
    (decode 1029 0x10000041#32).instr? = none ∧ (decode 1029 0x40000001#32).instr? = none ∧
    (decode 1029 0x30000406#32).instr? = none ∧ (decode 1029 0x50000403#32).instr? = none ∧
    (decode 1029 0x10000040#32).instr? ≠ none := by decide

theorem witness_OpcodePatterns :
    (0x00000000#32).toNat / 2 ^ 28 = 0 ∧ 6 ≤ (0x60000000#32).toNat / 2 ^ 28 ∧ 6 ≤ (0xF0000000#32).toNat / 2 ^ 28 := by decide

theorem witness_OperandsAreTheirFields :
    decode 1029 0x10000040#32 = .legal (.rdu 64) ∧ decode 1029 0x2000000E#32 = .legal (.rdi 14) ∧
    decode 1029 0x30404001#32 = .legal (.bind 1028 1) ∧ decode 1029 0x50014000#32 = .legal (.chk 20 0) := by decide

theorem witness_StepRunsTheDecodedCommand :
    ((atState 0 9 0 nineBytes).offer 0x10000008#32).inputs = .command 0x10000008#32 :: [] ∧
    decode ((atState 0 9 0 nineBytes).offer 0x10000008#32).cfg.fmSize 0x10000008#32 = .legal (.rdu 8) := by decide

theorem witness_StepAnswersIllegalWords :
    ((atState 0 9 0 nineBytes).offer 0x10000041#32).inputs = .command 0x10000041#32 :: [] ∧
    decode ((atState 0 9 0 nineBytes).offer 0x10000041#32).cfg.fmSize 0x10000041#32 = .illegal .width := by decide

/-- The last address of FM, and the first beyond it. -/
theorem witness_StepHostWrite :
    (State.reset.offerAll [.fmWr 1028 0x5A]).inputs = .fmWr 1028 0x5A :: [] ∧ 1028 < State.reset.cfg.fmSize ∧
    (State.reset.offerAll [.fmWr 1029 0x5A]).inputs = .fmWr 1029 0x5A :: [] ∧ State.reset.cfg.fmSize ≤ 1029 := by decide

theorem witness_StepReset :
    ((atState 3 5 17 nineBytes).offerAll [.reset none]).inputs = .reset none :: [] ∧
    ((atState 3 5 17 nineBytes).offerAll [.reset (some 0x40000000#32)]).inputs = .reset (some 0x40000000#32) :: [] := by decide

theorem witness_StepIdle : (atState 3 5 17 nineBytes).inputs = [] := by decide

/-- A read before any `BIND`, and a `BIND` that ends the empty binding. -/
theorem witness_ResetBindsTheEmptyBuffer :
    State.reset.len = 0 ∧ State.reset.bitpos = 0 ∧ 1 ≤ (1 : Operand).toNat ∧ (64 : Operand).toNat ≤ 64 ∧
    (∃ t, step (State.reset.offer 0x30003005#32) = .next t ∧ (t.len ≠ 0 ∨ t.bitpos ≠ 0)) :=
  ⟨by decide, by decide, by decide, by decide, _, rfl, by decide⟩

/-- A read to the exact end (S15), 64 bits unaligned (S3), one bit past the end (S16); a word of each illegal kind. -/
theorem witness_RduCompletes :
    (1 ≤ (4 : Operand).toNat ∧ (4 : Operand).toNat ≤ 64 ∧ (atState 0 2 12 nineBytes).windowInside ∧
      (atState 0 2 12 nineBytes).bitpos.toNat + (4 : Operand).toNat ≤ 8 * (atState 0 2 12 nineBytes).len.toNat) ∧
    (1 ≤ (64 : Operand).toNat ∧ (64 : Operand).toNat ≤ 64 ∧ (atState 0 9 3 nineBytes).windowInside ∧
      (atState 0 9 3 nineBytes).bitpos.toNat + (64 : Operand).toNat ≤ 8 * (atState 0 9 3 nineBytes).len.toNat) ∧
    (1 ≤ (5 : Operand).toNat ∧ (5 : Operand).toNat ≤ 64 ∧
      8 * (atState 0 2 12 nineBytes).len.toNat < (atState 0 2 12 nineBytes).bitpos.toNat + (5 : Operand).toNat) ∧
    ((0x11000008#32).toNat / 2 ^ 28 = 1 ∧ (0x11000008#32).toNat / 2 ^ 24 % 16 ≠ 0) ∧
    ((0x10001008#32).toNat / 2 ^ 28 = 1 ∧ (0x10001008#32).toNat / 2 ^ 12 % 4096 ≠ 0) ∧
    ((0x10000000#32).toNat / 2 ^ 28 = 1 ∧ (0x10000000#32).toNat % 4096 = 0) ∧
    ((0x10000041#32).toNat / 2 ^ 28 = 1 ∧ 65 ≤ (0x10000041#32).toNat % 4096) := by decide

/-- The 14-bit field of Scenario A; no bits left; a word of each illegal kind. -/
theorem witness_RdiCompletes :
    (1 ≤ (14 : Operand).toNat ∧ (14 : Operand).toNat ≤ 64 ∧ (atState 0 5 24 scenarioA).windowInside ∧
      (atState 0 5 24 scenarioA).bitpos.toNat + (14 : Operand).toNat ≤ 8 * (atState 0 5 24 scenarioA).len.toNat) ∧
    (1 ≤ (1 : Operand).toNat ∧ (1 : Operand).toNat ≤ 64 ∧
      8 * (atState 0 2 16 nineBytes).len.toNat < (atState 0 2 16 nineBytes).bitpos.toNat + (1 : Operand).toNat) ∧
    ((0x2F000008#32).toNat / 2 ^ 28 = 2 ∧ (0x2F000008#32).toNat / 2 ^ 24 % 16 ≠ 0) ∧
    ((0x20001008#32).toNat / 2 ^ 28 = 2 ∧ (0x20001008#32).toNat / 2 ^ 12 % 4096 ≠ 0) ∧
    ((0x20000000#32).toNat / 2 ^ 28 = 2 ∧ (0x20000000#32).toNat % 4096 = 0) ∧
    ((0x20000FFF#32).toNat / 2 ^ 28 = 2 ∧ 65 ≤ (0x20000FFF#32).toNat % 4096) := by decide

theorem witness_FieldIsASliceOfTheWindowNumber :
    24 + 14 ≤ 8 * (atState 0 5 0 scenarioA).len.toNat ∧ 40 + 0 ≤ 8 * (atState 0 5 0 scenarioA).len.toNat ∧
    (atState 0 5 0 scenarioA).fmByte (atState 0 5 0 scenarioA).base.toNat = 0x06#8 ∧
    (atState 0 5 0 scenarioA).fmByte ((atState 0 5 0 scenarioA).base.toNat + 1) = 0x40#8 := by decide

/-- A field whose first bit is 0, and one of 64 bits whose first bit is 1. -/
theorem witness_SignedAndUnsignedReadsAgree :
    ((atState 0 9 0 nineBytes).windowInside ∧ 1 ≤ (8 : Operand).toNat ∧ (8 : Operand).toNat ≤ 64 ∧
      (atState 0 9 0 nineBytes).bitpos.toNat + (8 : Operand).toNat ≤ 8 * (atState 0 9 0 nineBytes).len.toNat ∧
      (atState 0 9 0 nineBytes).streamBit (atState 0 9 0 nineBytes).bitpos.toNat = 0) ∧
    ((atState 0 9 7 nineBytes).windowInside ∧ (64 : Operand).toNat = 64 ∧
      (atState 0 9 7 nineBytes).bitpos.toNat + (64 : Operand).toNat ≤ 8 * (atState 0 9 7 nineBytes).len.toNat ∧
      (atState 0 9 7 nineBytes).streamBit (atState 0 9 7 nineBytes).bitpos.toNat = 1) := by decide

/-- S16: 4 bits remain, 5 are asked, a narrower read of 4 fits. -/
theorem witness_BoundsFailureLeavesTheCursor :
    (atState 0 2 12 nineBytes).Inv ∧ 1 ≤ (5 : Operand).toNat ∧ (5 : Operand).toNat ≤ 64 ∧
    8 * (atState 0 2 12 nineBytes).len.toNat - (atState 0 2 12 nineBytes).bitpos.toNat < (5 : Operand).toNat ∧
    1 ≤ (4 : Operand).toNat ∧
    (4 : Operand).toNat ≤ 8 * (atState 0 2 12 nineBytes).len.toNat - (atState 0 2 12 nineBytes).bitpos.toNat := by decide

theorem witness_BoundsDependsOnWidthAndCursorOnly :
    (atState 0 2 12 nineBytes).Inv ∧ 1 ≤ (4 : Operand).toNat ∧ (4 : Operand).toNat ≤ 64 ∧ (5 : Operand).toNat ≤ 64 := by decide

/-- A read to the end of a window at the end of FM; and a window that leaves FM, which no run reaches. -/
theorem witness_ReadsStayInsideTheWindow :
    (1 ≤ (8 : Operand).toNat ∧ (8 : Operand).toNat ≤ 64 ∧
      (atState 1028 1 0 []).bitpos.toNat + (8 : Operand).toNat ≤ 8 * (atState 1028 1 0 []).len.toNat ∧
      (atState 1028 1 0 []).windowInside) ∧
    ((atState 1028 2 8 []).bitpos.toNat + (8 : Operand).toNat ≤ 8 * (atState 1028 2 8 []).len.toNat ∧
      (atState 1028 2 8 []).cfg.fmSize ≤ (atState 1028 2 8 []).lastReadAddress (8 : Operand).toNat) := by decide

/-- The widths 1, 14 and 64. -/
theorem witness_ReadResultRanges :
    (atState 0 9 0 nineBytes).windowInside ∧ 1 ≤ (1 : Operand).toNat ∧ (14 : Operand).toNat = 14 ∧ (64 : Operand).toNat = 64 ∧
    (atState 0 9 0 nineBytes).bitpos.toNat + (64 : Operand).toNat ≤ 8 * (atState 0 9 0 nineBytes).len.toNat := by decide

/-- S23, and the widest pair. -/
theorem witness_ReadsConcatenate :
    (atState 0 9 0 nineBytes).windowInside ∧ 1 ≤ (3 : Operand).toNat ∧ 1 ≤ (5 : Operand).toNat ∧
    (3 : Operand).toNat + (5 : Operand).toNat ≤ 64 ∧ (63 : Operand).toNat + (1 : Operand).toNat ≤ 64 ∧
    (atState 0 9 0 nineBytes).bitpos.toNat + (3 : Operand).toNat + (5 : Operand).toNat ≤
      8 * (atState 0 9 0 nineBytes).len.toNat := by decide

/-- S3, where the read touches 9 bytes; the other memory is the same bytes written once more. -/
theorem witness_ReadFootprint :
    1 ≤ (64 : Operand).toNat ∧ (64 : Operand).toNat ≤ 64 ∧ (atState 0 9 3 nineBytes).windowInside ∧
    (atState 0 9 3 nineBytes).bitpos.toNat + (64 : Operand).toNat ≤ 8 * (atState 0 9 3 nineBytes).len.toNat ∧
    ∀ a, 0 ≤ a → a ≤ 8 →
      ({ atState 0 9 3 nineBytes with fm := (cells 0 nineBytes).write 9 0x77 } : State).fmByte a = (atState 0 9 3 nineBytes).fmByte a := by
  refine ⟨by decide, by decide, by decide, by decide, fun a _ h => ?_⟩
  interval_cases a <;> rfl

theorem witness_IllFormedCommandsAnswerIllegal :
    (Instr.rdu 0).wellFormed State.reset.cfg.fmSize = false ∧ (Instr.rdi 65).wellFormed State.reset.cfg.fmSize = false ∧
    (Instr.bind 0 1030).wellFormed State.reset.cfg.fmSize = false ∧
    (Instr.chk 0 1027).wellFormed State.reset.cfg.fmSize = false := by decide

theorem witness_ReadFrame :
    (∃ t, exec (.rdu 12) (atState 0 5 0 scenarioA) = .next t) ∧ (∃ t, exec (.rdi 14) (atState 0 5 24 scenarioA) = .next t) ∧
    ∃ t, exec (.rdu 5) (atState 0 2 12 nineBytes) = .next t ∧ t.responses = [.bounds] ∧ Response.bounds.status ≠ 0 :=
  ⟨next?_eq_some (by decide +kernel), next?_eq_some (by decide +kernel), _, rfl, by decide⟩

/-- `FM_SIZE` exactly, an empty window at its end, one byte too many (E10), and a reserved bit (E30). -/
theorem witness_BindCompletes :
    (0 : Operand).toNat + (1029 : Operand).toNat ≤ State.reset.cfg.fmSize ∧
    (1029 : Operand).toNat + (0 : Operand).toNat ≤ State.reset.cfg.fmSize ∧
    ((0x30000406#32).toNat / 2 ^ 28 = 3 ∧
      State.reset.cfg.fmSize < (0x30000406#32).toNat / 2 ^ 12 % 4096 + (0x30000406#32).toNat % 4096) ∧
    ((0x38000000#32).toNat / 2 ^ 28 = 3 ∧ (0x38000000#32).toNat / 2 ^ 24 % 16 ≠ 0) := by decide

/-- B7, and rows E28 and E29. -/
theorem witness_PosCompletes :
    (atState 3 5 40 nineBytes).cursorInside ∧
    ((0x40000001#32).toNat / 2 ^ 28 = 4 ∧ (0x40000001#32).toNat % 2 ^ 28 ≠ 0) ∧
    ((0x40001000#32).toNat / 2 ^ 28 = 4 ∧ (0x40001000#32).toNat % 2 ^ 28 ≠ 0) := by decide

theorem witness_ControlAndCheckFrame :
    (∃ t, exec (.bind 3 5) (atState 0 9 3 nineBytes) = .next t) ∧ (∃ t, exec .pos (atState 0 9 3 nineBytes) = .next t) ∧
    (∃ t, exec (.chk 0 8) (atState 0 9 3 goodFrame) = .next t) ∧
    ((∀ w, Instr.bind 3 5 ≠ .rdu w ∧ Instr.bind 3 5 ≠ .rdi w) ∧ (∀ w, Instr.pos ≠ .rdu w ∧ Instr.pos ≠ .rdi w) ∧
      (∀ w, Instr.chk 0 8 ≠ .rdu w ∧ Instr.chk 0 8 ≠ .rdi w)) ∧
    (∀ base len, Instr.pos ≠ .bind base len) ∧ ∀ base len, Instr.chk 0 8 ≠ .bind base len :=
  ⟨⟨_, rfl⟩, ⟨_, rfl⟩, next?_eq_some (by decide +kernel), by simp, by simp, by simp⟩

theorem witness_PosCountsTheBitsConsumed :
    (3 : Operand).toNat + (5 : Operand).toNat ≤ State.reset.cfg.fmSize ∧
    ∀ i ∈ [Instr.rdu 12, Instr.rdi 64, Instr.rdu 1], ∃ w : Operand, 1 ≤ w.toNat ∧ w.toNat ≤ 64 ∧ (i = .rdu w ∨ i = .rdi w) := by
  refine ⟨by decide, fun i hi => ?_⟩
  simp only [List.mem_cons, List.not_mem_nil, or_false] at hi
  obtain rfl | rfl | rfl := hi
  · exact ⟨12, by decide, by decide, .inl rfl⟩
  · exact ⟨64, by decide, by decide, .inr rfl⟩
  · exact ⟨1, by decide, by decide, .inl rfl⟩

/-- E16 and E17, and a reserved bit. -/
theorem witness_ChkCompletes :
    (0 : Operand).toNat + (1026 : Operand).toNat + 3 ≤ State.reset.cfg.fmSize ∧
    ((0x50000403#32).toNat / 2 ^ 28 = 5 ∧
      State.reset.cfg.fmSize < (0x50000403#32).toNat / 2 ^ 12 % 4096 + (0x50000403#32).toNat % 4096 + 3) ∧
    ((0x51000000#32).toNat / 2 ^ 28 = 5 ∧ (0x51000000#32).toNat / 2 ^ 24 % 16 ≠ 0) := by decide

theorem witness_ChkIsIndependentOfTheCursor :
    (∃ t, exec (.bind 3 5) (atState 0 0 0 goodFrame) = .next t) ∧
    (∃ t, exec (.rdu 8) (atState 0 9 0 nineBytes) = .next t) ∧
    ∃ t, step ((atState 3 5 17 goodFrame).offerAll [.reset none]) = .next t ∧
      ∀ a b rest, ((atState 3 5 17 goodFrame).offerAll [.reset none]).inputs ≠ .fmWr a b :: rest :=
  ⟨⟨_, rfl⟩, next?_eq_some (by decide +kernel), _, rfl, by simp [State.offerAll]⟩

/-- K1 and K11: the same frame at 0 and at 4. -/
theorem witness_ChkIsPositionIndependent :
    (atState 0 0 0 goodFrame).cfg.checksum = (atState 0 0 0 ([0, 0, 0, 0] ++ goodFrame)).cfg.checksum ∧
    (0 : Operand).toNat + (8 : Operand).toNat + 3 ≤ (atState 0 0 0 goodFrame).cfg.fmSize ∧
    (4 : Operand).toNat + (8 : Operand).toNat + 3 ≤ (atState 0 0 0 ([0, 0, 0, 0] ++ goodFrame)).cfg.fmSize ∧
    ∀ j, j < (8 : Operand).toNat + 3 → (atState 0 0 0 goodFrame).fmByte ((0 : Operand).toNat + j) =
      (atState 0 0 0 ([0, 0, 0, 0] ++ goodFrame)).fmByte ((4 : Operand).toNat + j) := by
  refine ⟨by decide, by decide, by decide, fun j hj => ?_⟩
  have hj : j < 11 := hj
  interval_cases j <;> rfl

/-- K1's covered bytes, the first and the last bit. -/
theorem witness_ChecksumSeesEverySingleBit :
    0 < (goodFrame.take 8).length ∧ 7 < (goodFrame.take 8).length ∧ 7 < 8 := by decide

/-- K1 passes; the flip is K2's, one bit of the byte at address 3. -/
theorem witness_SingleBitFlipFailsTheCheck :
    seen (exec (.chk 0 8) ((atState 0 0 0 goodFrame).offerAll [.fmWr 3 0x07])) = some (0, 0, 0, [.ok 1]) ∧
    exec (.chk 0 8) ((atState 0 0 0 goodFrame).offerAll [.fmWr 3 0x07]) =
      .next { (atState 0 0 0 goodFrame).offerAll [.fmWr 3 0x07] with responses := [] ++ [.ok 1] } ∧
    3 < (8 : Operand).toNat ∧ 0 < 8 ∧
    ((atState 0 0 0 goodFrame).offerAll [.fmWr 3 0x07]).inputs =
      ((atState 0 0 0 goodFrame).offerAll [.fmWr 3 0x07]).flipMove ((0 : Operand).toNat + 3) 0 :: [] := by
  refine ⟨by decide +kernel, ?_, by decide, by decide, by decide⟩
  have hm : ((atState 0 0 0 goodFrame).offerAll [.fmWr 3 0x07]).checksumMatches (0 : Operand).toNat (8 : Operand).toNat = true := by
    decide +kernel
  have hl : (Instr.chk 0 8).wellFormed ((atState 0 0 0 goodFrame).offerAll [.fmWr 3 0x07]).cfg.fmSize = true := by decide
  simp only [exec, execChk, if_pos hl, if_pos hm]
  rfl

theorem witness_Crc24qSeesEverySingleBit :
    goodFrame.length = badFrame.length ∧ 3 < goodFrame.length ∧ 0 < 8 ∧ 7 < 8 := by decide

theorem witness_StepKeepsInv :
    (atState 0 9 3 nineBytes).Inv ∧ ((atState 0 9 3 nineBytes).offer 0x30003005#32).Inv ∧
    ∃ t, step ((atState 0 9 3 nineBytes).offer 0x30003005#32) = .next t := ⟨by decide, by decide, _, rfl⟩

/-- A bounds failure and an illegal word: the two right-hand sides. -/
theorem witness_OneCommandGivesOneStatus :
    (atState 0 2 12 nineBytes).Inv ∧ (decode 1029 0x10000041#32).instr? = none ∧
    decode 1029 0x10000005#32 = .legal (.rdu 5) ∧
    8 * (atState 0 2 12 nineBytes).len.toNat - (atState 0 2 12 nineBytes).bitpos.toNat < (5 : Operand).toNat := by decide

theorem witness_FailuresArePrecise :
    (∃ t, runCommand 0x10000005#32 (atState 0 2 12 nineBytes) = .next t ∧ t.responses = [] ++ [.bounds]) ∧
    (∃ t, runCommand 0x10000041#32 (atState 0 2 12 nineBytes) = .next t ∧ t.responses = [] ++ [.illegal]) ∧
    Response.bounds.status ≠ 0 ∧ Response.illegal.status ≠ 0 := ⟨⟨_, rfl, rfl⟩, ⟨_, rfl, rfl⟩, by decide, by decide⟩

theorem witness_RepeatedBoundsLeaveTheState :
    decode (atState 0 2 12 nineBytes).cfg.fmSize 0x10000005#32 = .legal (.rdu 5) ∧
    8 * (atState 0 2 12 nineBytes).len.toNat - (atState 0 2 12 nineBytes).bitpos.toNat < (5 : Operand).toNat ∧
    ((atState 0 2 12 nineBytes).offerAll (List.replicate 3 (.command 0x10000005#32))).inputs =
      List.replicate 3 (.command 0x10000005#32) ++ [] := by decide

theorem witness_NoCommandWritesFrameMemory :
    (∃ t, runCommand 0x40000000#32 (atState 0 9 3 nineBytes) = .next t) ∧
    (∃ t, runCommand 0x30003005#32 (atState 0 9 3 nineBytes) = .next t) ∧
    decode 1029 0x40000000#32 = .legal .pos ∧ decode 1029 0x30003005#32 = .legal (.bind 3 5) :=
  ⟨⟨_, rfl⟩, ⟨_, rfl⟩, by decide, by decide⟩

/-- A `BIND` lowers the cursor, a `RESET` changes the window, an `FM_WR` changes a byte, a command answers. -/
theorem witness_OnlyTheNamedEventsWrite :
    (∃ t, step ((atState 0 9 3 nineBytes).offer 0x30003005#32) = .next t ∧ t.bitpos.toNat < (atState 0 9 3 nineBytes).bitpos.toNat) ∧
    (∃ t, step ((atState 0 9 3 nineBytes).offerAll [.reset none]) = .next t ∧ t.len ≠ (atState 0 9 3 nineBytes).len) ∧
    (∃ t, step ((atState 0 9 3 nineBytes).offerAll [.fmWr 0 0x77]) = .next t ∧ t.fmByte 0 ≠ (atState 0 9 3 nineBytes).fmByte 0) ∧
    ∃ t, step ((atState 0 9 3 nineBytes).offer 0x40000000#32) = .next t ∧ t.responses ≠ (atState 0 9 3 nineBytes).responses :=
  ⟨⟨_, rfl, by decide⟩, ⟨_, rfl, by decide⟩, ⟨_, rfl, by decide⟩, _, rfl, by decide⟩

/-- Two states alike but for what was delivered before. -/
theorem witness_NoHiddenState :
    ({ atState 0 9 3 nineBytes with responses := [.bounds] } : State).base = (atState 0 9 3 nineBytes).base ∧
    ({ atState 0 9 3 nineBytes with responses := [.bounds] } : State).cfg = (atState 0 9 3 nineBytes).cfg ∧
    (∀ a, ({ atState 0 9 3 nineBytes with responses := [.bounds] } : State).fmByte a = (atState 0 9 3 nineBytes).fmByte a) ∧
    ∃ t, runCommand 0x40000000#32 (atState 0 9 3 nineBytes) = .next t := ⟨rfl, rfl, fun _ => rfl, _, rfl⟩

/-- Five bytes to the last addresses of FM. -/
theorem witness_LoadedBytesReadBack :
    (State.reset.offerAll (loadMoves 1024 scenarioA)).inputs = loadMoves 1024 scenarioA ++ [] ∧
    1024 + scenarioA.length ≤ State.reset.cfg.fmSize := by decide

/-- The address before the window, and the one after it. -/
theorem witness_WritesOutsideTheWindowAreUnseen :
    (2 < (atState 3 5 0 nineBytes).base.toNat ∧ (atState 3 5 0 nineBytes).base.toNat + (atState 3 5 0 nineBytes).len.toNat ≤ 8) ∧
    (∃ u, (atState 3 5 0 nineBytes).hostWrite 2 0x77 = .next u) ∧ (∃ u, (atState 3 5 0 nineBytes).hostWrite 8 0x77 = .next u) ∧
    ∃ t, exec (.rdu 12) (atState 3 5 0 nineBytes) = .next t :=
  ⟨by decide, ⟨_, rfl⟩, ⟨_, rfl⟩, next?_eq_some (by decide +kernel)⟩

/-- Writes just below and just above the range. -/
theorem witness_StableRangesKeepTheirBytes :
    stableRange 3 5 [.fmWr 2 0x77, .fmWr 8 0x77, .command 0x40000000#32] = true ∧
    ∃ t, Sys2Proof.core.run 3 ((atState 0 9 3 nineBytes).offerAll [.fmWr 2 0x77, .fmWr 8 0x77, .command 0x40000000#32]) = .next t :=
  ⟨by decide, _, rfl⟩

theorem witness_LegalProgramsSeeNoIllegal :
    noIllegal ((atState 0 9 3 nineBytes).offer 0x40000000#32).responses = true ∧
    (∀ cw, Event.command cw ∈ ((atState 0 9 3 nineBytes).offer 0x40000000#32).inputs →
      (decode ((atState 0 9 3 nineBytes).offer 0x40000000#32).cfg.fmSize cw).instr? ≠ none) ∧
    ∃ t, Sys2Proof.core.run 1 ((atState 0 9 3 nineBytes).offer 0x40000000#32) = .next t := by
  refine ⟨by decide, fun cw h => ?_, _, rfl⟩
  have h : cw = 0x40000000#32 := by simpa [State.offer, atState, State.reset] using h
  subst h
  decide

/-- One read of 8 bytes, and 9 bytes read one by one. -/
theorem witness_RdbytesDeliversTheStream :
    (atState 0 9 0 nineBytes).Inv ∧ (atState 0 9 0 nineBytes).bitpos.toNat + 8 * 8 ≤ 8 * (atState 0 9 0 nineBytes).len.toNat ∧
    (atState 0 9 0 nineBytes).bitpos.toNat + 8 * 9 ≤ 8 * (atState 0 9 0 nineBytes).len.toNat := by decide

/-- 72 bits are there: a skip of all of them, and of one more. -/
theorem witness_SkipMovesTheCursor :
    (atState 0 9 0 nineBytes).Inv ∧ 72 ≤ 8 * (atState 0 9 0 nineBytes).len.toNat - (atState 0 9 0 nineBytes).bitpos.toNat ∧
    8 * (atState 0 9 0 nineBytes).len.toNat - (atState 0 9 0 nineBytes).bitpos.toNat < 73 := by decide

theorem witness_TypecodeIsTheFirstTwelveBits :
    (1027 : Operand).toNat + (2 : Operand).toNat ≤ State.reset.cfg.fmSize ∧ 2 ≤ (2 : Operand).toNat ∧
    (1027 : Operand).toNat + (1 : Operand).toNat ≤ State.reset.cfg.fmSize ∧ (1 : Operand).toNat < 2 := by decide

/-- The layout of Scenario A over 5 bytes, which fit, and over 4, which do not. -/
theorem witness_FieldsConsumeTheirWidths :
    (atState 0 5 0 scenarioA).Inv ∧ (atState 0 4 0 scenarioA).Inv ∧
    (∀ f ∈ scenarioFields, 1 ≤ f.widthBits.toNat ∧ f.widthBits.toNat ≤ 64) ∧
    fieldsWidth scenarioFields ≤ 8 * (atState 0 5 0 scenarioA).len.toNat - (atState 0 5 0 scenarioA).bitpos.toNat ∧
    8 * (atState 0 4 0 scenarioA).len.toNat - (atState 0 4 0 scenarioA).bitpos.toNat < fieldsWidth scenarioFields := by decide

/-- Program P3 decodes, from its first bit. -/
theorem witness_MaskmsgConsumesExactly :
    (atState 0 33 0 maskPayload).Inv ∧
    ∃ t r, (pseudoMaskmsg [⟨"type", false, 12⟩]).run (atState 0 33 0 maskPayload) = .next (t, .record r) :=
  ⟨by decide, decoded_eq_true (by decide +kernel)⟩

/-- The frame of K1, its payload the corrected Scenario A. -/
theorem witness_FrameInPlacePassesItsCheck :
    [(0x06 : Byte), 0x40, 0x00, 0x00, 0x28].length ≤ 1023 ∧
    (0 : Operand).toNat + [(0x06 : Byte), 0x40, 0x00, 0x00, 0x28].length + 6 ≤ (atState 0 0 0 goodFrame).cfg.fmSize ∧
    (atState 0 0 0 goodFrame).cfg.wf ∧
    (atState 0 0 0 goodFrame).memRead (0 : Operand).toNat ([(0x06 : Byte), 0x40, 0x00, 0x00, 0x28].length + 6) =
      frameBytes (atState 0 0 0 goodFrame).cfg.checksum [0x06, 0x40, 0x00, 0x00, 0x28] := by decide +kernel

theorem witness_FrameHeaderIsReadByTheCursor :
    (0 : Operand).toNat + 3 ≤ (atState 0 0 0 goodFrame).cfg.fmSize ∧
    (1026 : Operand).toNat + 3 ≤ (atState 0 0 0 goodFrame).cfg.fmSize := by decide

/-- The frame of K1, which is decoded, and that of K2, which is not. -/
theorem witness_OnlyCheckedFramesAreDecoded :
    (∃ t r, (decodeFrame 0 5 scenarioFields).run (atState 0 0 0 goodFrame) = .next (t, .record r)) ∧
    ∃ t r, (decodeFrame 0 5 scenarioFields).run (atState 0 0 0 badFrame) = .next (t, .record r) :=
  ⟨decoded_eq_true (by decide +kernel), decoded_eq_true (by decide +kernel)⟩

end Sys2Proof.Machine.Tests
end

section
/-! PROOFS. The CRC-24Q register: bit 24 is clear between inner steps, and there each inner step can be undone. So two byte
sequences that differ in one bit leave two different registers. -/

namespace Sys2Proof.Machine

/-- An inner step leaves bit 24 clear, whatever the register was (R76). -/
theorem crcShift_bit24 (crc : BitVec 25) : (crcShift crc).getLsbD 24 = false := by
  simp only [crcShift]
  split
  · next h => rw [BitVec.getLsbD_xor, h]; decide
  · next h => exact Bool.eq_false_of_not_eq_true h

/-- The polynomial is odd, so the bit shifted out of bits 23:0 shows as bit 0 of the result. -/
theorem crcShift_bit0 (crc : BitVec 25) : (crcShift crc).getLsbD 0 = (crc <<< 1).getLsbD 24 := by
  simp only [crcShift]
  split
  · next h => rw [BitVec.getLsbD_xor, h]; simp [crcPolynomial]
  · next h => rw [Bool.eq_false_of_not_eq_true h]; simp

/-- Doubling loses nothing of a register whose bit 24 is clear. -/
theorem shiftLeft_one_inj {x y : BitVec 25} (hx : x.getLsbD 24 = false) (hy : y.getLsbD 24 = false)
    (h : x <<< 1 = y <<< 1) : x = y := by
  apply BitVec.eq_of_getLsbD_eq
  intro i hi
  rcases Nat.lt_or_ge i 24 with hlow | hhigh
  · have hbit := congrArg (fun r : BitVec 25 => r.getLsbD (i + 1)) h
    simpa [show i + 1 < 25 by omega, BitVec.getLsbD_eq_getElem hi] using hbit
  · obtain rfl : i = 24 := by omega
    rw [hx, hy]

/-- An inner step can be undone: bit 0 of the result tells whether the polynomial was added. -/
theorem crcShift_inj {x y : BitVec 25} (hx : x.getLsbD 24 = false) (hy : y.getLsbD 24 = false)
    (h : crcShift x = crcShift y) : x = y := by
  have hcarry : (x <<< 1).getLsbD 24 = (y <<< 1).getLsbD 24 := by rw [← crcShift_bit0, h, crcShift_bit0]
  refine shiftLeft_one_inj hx hy ?_
  simp only [crcShift, hcarry] at h
  split at h
  · exact (BitVec.xor_left_inj _).mp h
  · exact h

theorem crcShifts_bit24 (n : Nat) {crc : BitVec 25} (h : crc.getLsbD 24 = false) :
    (crcShifts n crc).getLsbD 24 = false := by
  induction n generalizing crc with
  | zero => exact h
  | succ n ih => exact ih (crcShift_bit24 crc)

theorem crcShifts_inj (n : Nat) {x y : BitVec 25} (hx : x.getLsbD 24 = false) (hy : y.getLsbD 24 = false)
    (h : crcShifts n x = crcShifts n y) : x = y := by
  induction n generalizing x y with
  | zero => exact h
  | succ n ih => exact crcShift_inj hx hy (ih (crcShift_bit24 x) (crcShift_bit24 y) h)

/-- Bringing a byte into bits 23:16 leaves bit 24 as it is. -/
theorem xor_byte_bit24 {crc : BitVec 25} (b : Byte) (h : crc.getLsbD 24 = false) :
    (crc ^^^ (b.setWidth 25 <<< 16)).getLsbD 24 = false := by
  rw [BitVec.getLsbD_xor, h]
  simp

theorem crcByte_bit24 {crc : BitVec 25} (b : Byte) (h : crc.getLsbD 24 = false) :
    (crcByte crc b).getLsbD 24 = false :=
  crcShifts_bit24 8 (xor_byte_bit24 b h)

/-- Two registers that take in the same byte stay different. -/
theorem crcByte_inj_register {x y : BitVec 25} (b : Byte) (hx : x.getLsbD 24 = false) (hy : y.getLsbD 24 = false)
    (h : crcByte x b = crcByte y b) : x = y :=
  (BitVec.xor_left_inj _).mp (crcShifts_inj 8 (xor_byte_bit24 b hx) (xor_byte_bit24 b hy) h)

/-- One register that takes in two different bytes gives two registers. -/
theorem crcByte_inj_byte {crc : BitVec 25} {b c : Byte} (hcrc : crc.getLsbD 24 = false)
    (h : crcByte crc b = crcByte crc c) : b = c := by
  have hin : b.setWidth 25 <<< 16 = c.setWidth 25 <<< 16 :=
    (BitVec.xor_right_inj _).mp (crcShifts_inj 8 (xor_byte_bit24 b hcrc) (xor_byte_bit24 c hcrc) h)
  apply BitVec.eq_of_getLsbD_eq
  intro i hi
  have hbit := congrArg (fun r : BitVec 25 => r.getLsbD (i + 16)) hin
  simpa [show i + 16 < 25 by omega, show i < 25 by omega] using hbit

theorem foldl_crcByte_bit24 (bytes : List Byte) {crc : BitVec 25} (h : crc.getLsbD 24 = false) :
    (bytes.foldl crcByte crc).getLsbD 24 = false := by
  induction bytes generalizing crc with
  | nil => exact h
  | cons b bytes ih => exact ih (crcByte_bit24 b h)

/-- Two registers that take in the same bytes stay different. -/
theorem foldl_crcByte_inj (bytes : List Byte) {x y : BitVec 25} (hx : x.getLsbD 24 = false) (hy : y.getLsbD 24 = false)
    (h : bytes.foldl crcByte x = bytes.foldl crcByte y) : x = y := by
  induction bytes generalizing x y with
  | nil => exact h
  | cons b bytes ih => exact crcByte_inj_register b hx hy (ih (crcByte_bit24 b hx) (crcByte_bit24 b hy) h)

theorem xor_twoPow_ne (b : Byte) {k : Nat} (hk : k < 8) : b ^^^ BitVec.twoPow 8 k ≠ b := by
  intro h
  have hbit := congrArg (fun x : Byte => x.getLsbD k) h
  simp [hk] at hbit

/-- From any register the inner loop can reach, an inverted bit gives another register: the flipped byte makes two registers, and
the bytes after it keep them apart. -/
theorem foldl_crcByte_flipBit_ne (bytes : List Byte) (j k : Nat) {crc : BitVec 25} (hcrc : crc.getLsbD 24 = false)
    (hj : j < bytes.length) (hk : k < 8) : (flipBit bytes j k).foldl crcByte crc ≠ bytes.foldl crcByte crc := by
  induction bytes generalizing j crc with
  | nil => simp at hj
  | cons b bytes ih =>
    cases j with
    | zero =>
      intro h
      have hbyte : crcByte crc (b ^^^ BitVec.twoPow 8 k) = crcByte crc b :=
        foldl_crcByte_inj bytes (crcByte_bit24 _ hcrc) (crcByte_bit24 _ hcrc) h
      exact xor_twoPow_ne b hk (crcByte_inj_byte hcrc hbyte)
    | succ j => exact ih j (crcByte_bit24 b hcrc) (by simpa using hj)

theorem crcRegister_bit24 (bytes : List Byte) : (crcRegister bytes).getLsbD 24 = false :=
  foldl_crcByte_bit24 bytes (by decide)

/-- The three bytes of the checksum hold the whole register, whose bit 24 is clear. -/
theorem crcRegister_eq_of_crc24q_eq {xs ys : List Byte} (h : crc24q xs = crc24q ys) :
    crcRegister xs = crcRegister ys := by
  simp only [crc24q, Checksum.mk.injEq] at h
  obtain ⟨hhigh, hmid, hlow⟩ := h
  apply BitVec.eq_of_getLsbD_eq
  intro i hi
  have hbyte {lo : Nat} (hlo : (crcRegister xs).extractLsb' lo 8 = (crcRegister ys).extractLsb' lo 8)
      (h1 : lo ≤ i) (h2 : i < lo + 8) : (crcRegister xs).getLsbD i = (crcRegister ys).getLsbD i := by
    have hbit := congrArg (fun x : Byte => x.getLsbD (i - lo)) hlo
    simpa [show i - lo < 8 by omega, Nat.add_sub_cancel' h1] using hbit
  rcases Nat.lt_or_ge i 8 with h8 | h8
  · exact hbyte hlow (Nat.zero_le i) (by omega)
  rcases Nat.lt_or_ge i 16 with h16 | h16
  · exact hbyte hmid h8 h16
  rcases Nat.lt_or_ge i 24 with h24 | h24
  · exact hbyte hhigh h16 h24
  · obtain rfl : i = 24 := by omega
    rw [crcRegister_bit24, crcRegister_bit24]

/-- CRC-24Q has the property R8 requires of `CK`. -/
theorem crc24q_seesEverySingleBit : SeesEverySingleBit crc24q := fun bytes j k hj hk h =>
  foldl_crcByte_flipBit_ne bytes j k (by decide) hj hk (crcRegister_eq_of_crc24q_eq h)

theorem checksumOf_seesEverySingleBit (choice : ChecksumChoice) : SeesEverySingleBit (checksumOf choice) := by
  cases choice with
  | crc24q => exact crc24q_seesEverySingleBit
  | unspecified => exact unspecifiedChecksum_seesEverySingleBit

/-- Settles O55: by definition for the open function, and for CRC-24Q because its inner step can be undone. -/
theorem checksumSeesEverySingleBit : Obligations.ChecksumSeesEverySingleBit :=
  checksumOf_seesEverySingleBit

end Sys2Proof.Machine
end

section
/-! PROOFS. The verdicts of `CHK` (R71, R74), and what one inverted covered bit does to a passing one. -/

namespace Sys2Proof.Machine

theorem legalCover_iff (fmSize : Nat) (base n : Operand) :
    legalCover fmSize base n = true ↔ base.toNat + n.toNat + 3 ≤ fmSize := by
  simp [legalCover]

/-- The bytewise comparison of R74 is one equation of checksums. -/
theorem State.checksumMatches_iff (s : State) (base n : Nat) :
    s.checksumMatches base n = true ↔
      checksumOf s.cfg.checksum (s.memRead base n) =
        ⟨s.fmByte (base + n), s.fmByte (base + n + 1), s.fmByte (base + n + 2)⟩ := by
  simp only [State.checksumMatches]
  generalize checksumOf s.cfg.checksum (s.memRead base n) = c
  cases c
  simp [and_assoc]

/-- The comparison depends on FM and the parameters alone, not on the cursor or the ports (R78). -/
theorem State.checksumMatches_of_fm {s t : State} (hfm : s.fm = t.fm) (hcfg : s.cfg = t.cfg) (base n : Nat) :
    s.checksumMatches base n = t.checksumMatches base n := by
  simp only [State.checksumMatches, State.memRead_of_fm hfm, State.fmByte_of_fm hfm, hcfg]

/-- A `CHK` inside FM whose checksum does not match answers 0 (R71, R75). -/
theorem exec_chk_answers_zero {s : State} {base n : Operand} (hrange : base.toNat + n.toNat + 3 ≤ s.cfg.fmSize)
    (hmatch : s.checksumMatches base.toNat n.toNat = false) :
    exec (.chk base n) s = .next (s.respond (.ok 0)) := by
  rw [exec_chk, if_pos ((legalCover_iff _ _ _).mpr hrange), hmatch, if_neg Bool.false_ne_true]

/-- `CHK` answers 1 only for a range inside FM whose checksum matches. -/
theorem exec_chk_answers_one {s : State} {base n : Operand} (h : exec (.chk base n) s = .next (s.respond (.ok 1))) :
    base.toNat + n.toNat + 3 ≤ s.cfg.fmSize ∧ s.checksumMatches base.toNat n.toNat = true := by
  rw [exec_chk] at h
  split at h
  · next hcover =>
    refine ⟨(legalCover_iff _ _ _).mp hcover, ?_⟩
    by_contra hmatch
    simp [hmatch, State.respond] at h
  · simp [State.respond] at h

/-- The state after the host has inverted bit `k` of the byte at an address. -/
def State.flipped (s : State) (a k : Nat) : State :=
  { s with fm := s.fm.write a (s.fmByte a ^^^ BitVec.twoPow 8 k) }

/-- The move that inverts a bit of FM is taken in one step, and answers nothing (R19). -/
theorem step_flipMove {s : State} {a k : Nat} {rest : List Event} (hin : s.inputs = s.flipMove a k :: rest)
    (ha : a < s.cfg.fmSize) : step s = .next (({ s with inputs := rest } : State).flipped a k) := by
  simp only [step, nextEvent, hin, State.flipMove, handleEvent, State.hostWrite, if_pos ha, State.flipped, State.fmByte]

/-- An inverted covered bit changes the checksum and not the trailer, so a match is lost (R8, R73). -/
theorem State.flipped_checksumMatches {s : State} {base n j k : Nat} (hmatch : s.checksumMatches base n = true)
    (hj : j < n) (hk : k < 8) : (s.flipped (base + j) k).checksumMatches base n = false := by
  have htrailer (i : Nat) (hi : base + n ≤ i) : (s.flipped (base + j) k).fmByte i = s.fmByte i :=
    State.fmByte_write_other s _ (by omega)
  have hread : (s.flipped (base + j) k).memRead base n = flipBit (s.memRead base n) j k :=
    State.memRead_write_flipped s base n j k
  rw [Bool.eq_false_iff, Ne, State.checksumMatches_iff, hread, htrailer _ (by omega), htrailer _ (by omega),
    htrailer _ (by omega), ← (State.checksumMatches_iff s base n).mp hmatch]
  exact checksumOf_seesEverySingleBit s.cfg.checksum _ j k (by rwa [State.memRead_length]) hk

/-- Settles O56: the move lies inside FM because the passing check did, and the match is lost. -/
theorem singleBitFlipFailsTheCheck : Obligations.SingleBitFlipFailsTheCheck := by
  intro s base n j k rest hpass hj hk hin
  obtain ⟨hrange, hmatch⟩ := exec_chk_answers_one hpass
  have hstill : ({ s with inputs := rest } : State).checksumMatches base.toNat n.toNat = true :=
    (State.checksumMatches_of_fm (s := { s with inputs := rest }) (t := s) rfl rfl _ _).trans hmatch
  exact ⟨_, step_flipMove hin (by omega), rfl,
    exec_chk_answers_zero hrange (State.flipped_checksumMatches hstill hj hk)⟩

end Sys2Proof.Machine
end

section
/-! PROOFS. What each kind of event does to the state, and the same said once for every step: the cursor, frame memory, the
parameters and the responses (R14 to R21, R67). -/

namespace Sys2Proof.Machine

/-! ## One event -/

theorem step_of_command {s : State} {cw : CmdWord} {rest : List Event} (hin : s.inputs = .command cw :: rest) :
    step s = runCommand cw { s with inputs := rest } := by
  simp only [step, nextEvent, hin, handleEvent]

theorem runCommand_of_legal {s : State} {cw : CmdWord} {i : Instr} (hdec : decode s.cfg.fmSize cw = .legal i) :
    runCommand cw s = exec i s := by
  simp only [runCommand, hdec]

theorem step_of_fmWr {s : State} {a : Nat} {b : Byte} {rest : List Event} (hin : s.inputs = .fmWr a b :: rest)
    (ha : a < s.cfg.fmSize) : step s = .next { s with inputs := rest, fm := s.fm.write a b } := by
  simp only [step, nextEvent, hin, handleEvent, State.hostWrite, if_pos ha]

theorem step_of_fmWr_outside {s : State} {a : Nat} {b : Byte} {rest : List Event} (hin : s.inputs = .fmWr a b :: rest)
    (ha : s.cfg.fmSize ≤ a) : step s = .refused (.hostWriteOutsideFM a) := by
  simp only [step, nextEvent, hin, handleEvent, State.hostWrite, if_neg (Nat.not_lt.mpr ha)]

/-- A command word that gives a next state was answered `ILLEGAL`, or the command it decodes to gave that state. -/
theorem runCommand_next {cw : CmdWord} {s t : State} (h : runCommand cw s = .next t) :
    t = s.respond .illegal ∨ ∃ i, decode s.cfg.fmSize cw = .legal i ∧ exec i s = .next t := by
  rcases runCommand_cases cw s with ⟨i, hdec, hrun⟩ | ⟨_, _, hrun⟩ <;> rw [hrun] at h
  · exact .inr ⟨i, hdec, h⟩
  · injection h with h
    exact .inl h.symm

/-- Everything a step that gives a next state can have done, by the event it took. -/
theorem step_next {s t : State} (h : step s = .next t) :
    t = s ∨
    (∃ cw rest, s.inputs = .command cw :: rest ∧ runCommand cw { s with inputs := rest } = .next t) ∨
    (∃ a b rest, s.inputs = .fmWr a b :: rest ∧ a < s.cfg.fmSize ∧
      t = { s with inputs := rest, fm := s.fm.write a b }) ∨
    (∃ c rest, s.inputs = .reset c :: rest ∧ t = ({ s with inputs := rest } : State).hostReset c) := by
  rcases step_cases s with ⟨_, hs⟩ | ⟨cw, rest, hin, hs⟩ | ⟨a, b, rest, hin, hs⟩ | ⟨c, rest, hin, hs⟩ <;> rw [hs] at h
  · injection h with h
    exact .inl h.symm
  · exact .inr (.inl ⟨cw, rest, hin, h⟩)
  · obtain ⟨ha, ht⟩ := State.hostWrite_next h
    exact .inr (.inr (.inl ⟨a, b, rest, hin, ha, ht⟩))
  · injection h with h
    exact .inr (.inr (.inr ⟨c, rest, hin, h.symm⟩))

/-! ## The cursor -/

/-- The window stays and the cursor does not fall; where it moves, it stops inside the window. -/
structure CursorAdvances (s t : State) : Prop where
  base : t.base = s.base
  len : t.len = s.len
  rises : s.bitpos.toNat ≤ t.bitpos.toNat
  inside : t.bitpos = s.bitpos ∨ t.bitpos.toNat ≤ 8 * s.len.toNat

theorem CursorAdvances.of_same {s t : State} (hb : t.base = s.base) (hl : t.len = s.len) (hp : t.bitpos = s.bitpos) :
    CursorAdvances s t :=
  ⟨hb, hl, (congrArg BitVec.toNat hp).ge, .inl hp⟩

/-- INV1 and INV2 outlive an advance of the cursor. -/
theorem CursorAdvances.keepsInv {s t : State} (h : CursorAdvances s t) (hcfg : t.cfg = s.cfg) (hwin : s.windowInside)
    (hcur : s.cursorInside) : t.windowInside ∧ t.cursorInside := by
  rw [State.windowInside, State.cursorInside, h.base, h.len, hcfg]
  refine ⟨hwin, ?_⟩
  rcases h.inside with hp | hp
  · rwa [hp]
  · exact hp

/-- The cursor is at bit 0 of a window: what `BIND` and `RESET` leave (R65, R102). -/
structure CursorBound (base len : Operand) (t : State) : Prop where
  base : t.base = base
  len : t.len = len
  bitpos : t.bitpos = 0

theorem CursorBound.inv {base len : Operand} {t : State} (h : CursorBound base len t)
    (hrange : base.toNat + len.toNat ≤ t.cfg.fmSize) : t.windowInside ∧ t.cursorInside := by
  rw [State.windowInside, State.cursorInside, h.base, h.len, h.bitpos]
  exact ⟨hrange, Nat.zero_le _⟩

/-- A command advances the cursor, or is a `BIND` of a window inside FM (R67). -/
theorem exec_cursor {i : Instr} {s t : State} (h : exec i s = .next t) :
    CursorAdvances s t ∨
    ∃ base len, i = .bind base len ∧ base.toNat + len.toNat ≤ s.cfg.fmSize ∧ CursorBound base len t := by
  rcases exec_next h with ⟨rfl, _⟩ | ⟨_, _, _, _, rfl⟩ | ⟨w, v, _, hw, hfit, _, rfl⟩ | ⟨base, len, hi, hrange, rfl⟩ | ⟨_, _, rfl⟩
  · exact .inl (.of_same rfl rfl rfl)
  · exact .inl (.of_same rfl rfl rfl)
  · obtain ⟨hpos, _⟩ := (legalWidth_iff w).mp hw
    have hadv : ((s.advance w.toNat).respond (.ok v)).bitpos.toNat = s.bitpos.toNat + w.toNat :=
      State.advance_bitpos_toNat s w.toNat (by omega)
    exact .inl ⟨rfl, rfl, by omega, .inr (by omega)⟩
  · exact .inr ⟨base, len, hi, hrange, rfl, rfl, rfl⟩
  · exact .inl (.of_same rfl rfl rfl)

/-- Everything a step can do to the cursor: only a legal `BIND` and `RESET` do more than advance it. -/
theorem step_cursor {s t : State} (h : step s = .next t) :
    CursorAdvances s t ∨
    (∃ c rest, s.inputs = .reset c :: rest ∧ CursorBound 0 0 t) ∨
    ∃ cw rest base len, s.inputs = .command cw :: rest ∧ decode s.cfg.fmSize cw = .legal (.bind base len) ∧
      base.toNat + len.toNat ≤ s.cfg.fmSize ∧ CursorBound base len t := by
  rcases step_next h with rfl | ⟨cw, rest, hin, hrun⟩ | ⟨_, _, _, _, _, rfl⟩ | ⟨c, rest, hin, rfl⟩
  · exact .inl (.of_same rfl rfl rfl)
  · rcases runCommand_next hrun with rfl | ⟨i, hdec, hexec⟩
    · exact .inl (.of_same rfl rfl rfl)
    · rcases exec_cursor hexec with hadv | ⟨base, len, rfl, hrange, hbound⟩
      · exact .inl ⟨hadv.base, hadv.len, hadv.rises, hadv.inside⟩
      · exact .inr (.inr ⟨cw, rest, base, len, hin, hdec, hrange, hbound⟩)
  · exact .inl (.of_same rfl rfl rfl)
  · exact .inr (.inl ⟨c, rest, hin, rfl, rfl, rfl⟩)

/-! ## Frame memory, parameters, responses -/

/-- No command writes FM, the parameters or the pending events (R28). -/
theorem exec_frame {i : Instr} {s t : State} (h : exec i s = .next t) :
    t.fm = s.fm ∧ t.cfg = s.cfg ∧ t.inputs = s.inputs := by
  rcases exec_next h with ⟨rfl, _⟩ | ⟨_, _, _, _, rfl⟩ | ⟨_, _, _, _, _, _, rfl⟩ | ⟨_, _, _, _, rfl⟩ | ⟨_, _, rfl⟩ <;>
    exact ⟨rfl, rfl, rfl⟩

theorem runCommand_frame {cw : CmdWord} {s t : State} (h : runCommand cw s = .next t) :
    t.fm = s.fm ∧ t.cfg = s.cfg ∧ t.inputs = s.inputs := by
  rcases runCommand_next h with rfl | ⟨_, _, hexec⟩
  · exact ⟨rfl, rfl, rfl⟩
  · exact exec_frame hexec

/-- No step changes the parameters (R7, R8). -/
theorem step_cfg {s t : State} (h : step s = .next t) : t.cfg = s.cfg := by
  rcases step_next h with rfl | ⟨_, _, _, hrun⟩ | ⟨_, _, _, _, _, rfl⟩ | ⟨_, _, _, rfl⟩
  · rfl
  · obtain ⟨_, hcfg, _⟩ := runCommand_frame hrun
    exact hcfg
  · rfl
  · rfl

/-- A step leaves FM, or is an `FM_WR` to an address FM has (R19, R28). -/
theorem step_fm {s t : State} (h : step s = .next t) :
    t.fm = s.fm ∨ ∃ a b rest, s.inputs = .fmWr a b :: rest ∧ a < s.cfg.fmSize ∧ t.fm = s.fm.write a b := by
  rcases step_next h with rfl | ⟨_, _, _, hrun⟩ | ⟨a, b, rest, hin, ha, rfl⟩ | ⟨_, _, _, rfl⟩
  · exact .inl rfl
  · obtain ⟨hfm, _⟩ := runCommand_frame hrun
    exact .inl hfm
  · exact .inr ⟨a, b, rest, hin, ha, rfl⟩
  · exact .inl rfl

/-- Only a command word is answered (R19, R21, R102). -/
theorem step_responses {s t : State} (h : step s = .next t) :
    t.responses = s.responses ∨ ∃ cw rest, s.inputs = .command cw :: rest := by
  rcases step_next h with rfl | ⟨cw, rest, hin, _⟩ | ⟨_, _, _, _, _, rfl⟩ | ⟨_, _, _, rfl⟩
  · exact .inl rfl
  · exact .inr ⟨cw, rest, hin⟩
  · exact .inl rfl
  · exact .inl rfl

/-- A byte of FM changes only at the address an `FM_WR` names. -/
theorem step_fmByte {s t : State} (h : step s = .next t) {a : Nat} (hne : t.fmByte a ≠ s.fmByte a) :
    ∃ b rest, s.inputs = .fmWr a b :: rest := by
  rcases step_fm h with hfm | ⟨a', b, rest, hin, _, hfm⟩
  · exact absurd (State.fmByte_of_fm hfm a) hne
  · by_cases ha : a = a'
    · exact ⟨b, rest, ha ▸ hin⟩
    · have hother : t.fmByte a = s.fmByte a :=
        (State.fmByte_of_fm (t := { s with fm := s.fm.write a' b }) hfm a).trans (State.fmByte_write_other s b ha)
      exact absurd hother hne

end Sys2Proof.Machine
end

section
/-! PROOFS. The invariants of R25: what reset leaves, and what every step keeps. -/

namespace Sys2Proof.Machine

/-- Settles O36: the window and FM's list are empty. -/
theorem resetHasInv : Obligations.ResetHasInv :=
  ⟨by decide, by decide, by decide, State.reset_fm_wf, rfl⟩

/-- INV1 and INV2 of R25 depend on the cursor alone: an advance keeps them, a `BIND` and a `RESET` establish them. -/
theorem step_keeps_cursorInv {s t : State} (h : step s = .next t) (hwin : s.windowInside) (hcur : s.cursorInside) :
    t.windowInside ∧ t.cursorInside := by
  have hcfg := step_cfg h
  rcases step_cursor h with hadv | ⟨_, _, _, hbound⟩ | ⟨_, _, _, _, _, _, hrange, hbound⟩
  · exact hadv.keepsInv hcfg hwin hcur
  · exact hbound.inv (Nat.zero_le _)
  · exact hbound.inv (hcfg ▸ hrange)

/-- FM's list stays canonical and inside `FM_SIZE`: the host writes at addresses FM has, and nothing else writes. -/
theorem step_keeps_memoryInv {s t : State} (h : step s = .next t) (hwf : s.fm.wf = true)
    (hwithin : s.fm.within s.cfg.fmSize = true) : t.fm.wf = true ∧ t.fm.within t.cfg.fmSize = true := by
  rw [step_cfg h]
  rcases step_fm h with hfm | ⟨a, b, _, _, ha, hfm⟩ <;> rw [hfm]
  · exact ⟨hwf, hwithin⟩
  · exact ⟨s.fm.wf_write a b hwf, s.fm.within_write _ a b hwithin ha⟩

/-- Settles O35, cursor and memory apart. -/
theorem stepKeepsInv : Obligations.StepKeepsInv := by
  rintro s t ⟨hcfg, hwin, hcur, hwf, hwithin⟩ h
  obtain ⟨hwin', hcur'⟩ := step_keeps_cursorInv h hwin hcur
  exact ⟨(step_cfg h).symm ▸ hcfg, hwin', hcur', step_keeps_memoryInv h hwf hwithin⟩

/-- Settles O41: each clause is what one field of the state can do in a step. -/
theorem onlyTheNamedEventsWrite : Obligations.OnlyTheNamedEventsWrite := by
  intro s t h
  refine ⟨step_cfg h, ?_, fun a => step_fmByte h, (step_responses h).resolve_left⟩
  intro hmoved
  rcases step_cursor h with hadv | ⟨c, rest, hin, _⟩ | ⟨cw, rest, base, len, hin, hdec, _⟩
  · rcases hmoved with hfall | hbase | hlen
    · exact absurd hfall (Nat.not_lt.mpr hadv.rises)
    · exact absurd hadv.base hbase
    · exact absurd hadv.len hlen
  · exact .inl ⟨c, rest, hin⟩
  · exact .inr ⟨cw, rest, base, len, hin, hdec⟩

end Sys2Proof.Machine
end

section
/-! PROOFS. The step on one event (R19, R20, R21), and bytes the host loads one after another (R38, R104). -/

namespace Sys2Proof.Machine

/-- Settles O7. -/
theorem statusCodes : Obligations.StatusCodes := by
  refine ⟨fun _ => rfl, rfl, rfl, fun r => ?_⟩
  cases r with
  | ok v => simp [Response.status, Response.value?]
  | bounds => simp [Response.status, Response.value?]
  | illegal => simp [Response.status, Response.value?]

/-- Settles O8. -/
theorem stepRunsTheDecodedCommand : Obligations.StepRunsTheDecodedCommand := fun s _ rest _ hin hdec =>
  (step_of_command hin).trans (runCommand_of_legal (s := { s with inputs := rest }) hdec)

/-- Settles O10, with the memory the write leaves. -/
theorem stepHostWrite : Obligations.StepHostWrite := fun s a b _ hin =>
  ⟨fun ha => ⟨s.fm.write a b, step_of_fmWr hin ha, State.fmByte_write_same s a b,
    fun _ hne => State.fmByte_write_other s b hne⟩, step_of_fmWr_outside hin⟩

/-- FM after bytes are written from an address on, in ascending order. -/
def Memory.load (m : Memory) (a : Nat) : List Byte → Memory
  | [] => m
  | b :: bytes => Memory.load (m.write a b) (a + 1) bytes

/-- The steps of the load moves leave FM loaded and change nothing else. -/
theorem run_loadMoves (bytes : List Byte) (s : State) (a : Nat) (rest : List Event)
    (hin : s.inputs = loadMoves a bytes ++ rest) (hfit : a + bytes.length ≤ s.cfg.fmSize) :
    Sys2Proof.core.run bytes.length s = .next ({ s with inputs := rest, fm := s.fm.load a bytes } : State) := by
  induction bytes generalizing s a with
  | nil =>
    obtain rfl : s.inputs = rest := hin
    rfl
  | cons b bytes ih =>
    rw [List.length_cons] at hfit ⊢
    rw [run_succ_of_step _ (step_of_fmWr hin (by omega))]
    exact ih { s with inputs := loadMoves (a + 1) bytes ++ rest, fm := s.fm.write a b } (a + 1) rfl
      (by dsimp only; omega)

theorem Memory.lookup_load_outside (bytes : List Byte) (m : Memory) {a a' : Nat}
    (h : a' < a ∨ a + bytes.length ≤ a') : (m.load a bytes).lookup a' = m.lookup a' := by
  induction bytes generalizing m a with
  | nil => rfl
  | cons b bytes ih =>
    rw [List.length_cons] at h
    rw [Memory.load, ih _ (by omega), Memory.lookup_write_other m b (by omega)]

theorem Memory.lookup_load_inside (bytes : List Byte) (m : Memory) (a j : Nat) (hj : j < bytes.length) :
    (m.load a bytes).lookup (a + j) = some bytes[j] := by
  induction bytes generalizing m a j with
  | nil => simp at hj
  | cons b bytes ih =>
    cases j with
    | zero => rw [Memory.load, Memory.lookup_load_outside _ _ (by omega)]; exact Memory.lookup_write_same m a b
    | succ j =>
      rw [Memory.load, ← Nat.add_assoc, Nat.add_right_comm]
      exact ih _ (a + 1) j (by simpa using hj)

theorem State.fmByte_load_inside (s : State) (a : Nat) (bytes : List Byte) (j : Nat) (hj : j < bytes.length) :
    ({ s with fm := s.fm.load a bytes } : State).fmByte (a + j) = bytes[j] := by
  rw [State.fmByte, Memory.lookup_load_inside bytes s.fm a j hj, Option.getD_some]

theorem State.memRead_load (s : State) (a : Nat) (bytes : List Byte) :
    ({ s with fm := s.fm.load a bytes } : State).memRead a bytes.length = bytes := by
  apply List.ext_getElem
  · exact State.memRead_length _ _ _
  · intro j _ hj
    simpa [State.memRead_eq_map] using State.fmByte_load_inside s a bytes j hj

theorem State.written_load (s : State) (a : Nat) (bytes : List Byte) :
    ({ s with fm := s.fm.load a bytes } : State).written a bytes.length = true := by
  refine List.all_eq_true.mpr fun j hj => ?_
  rw [Memory.lookup_load_inside bytes s.fm a j (List.mem_range.mp hj), Option.isSome_some]

/-- Settles O43, by induction on the bytes. -/
theorem loadedBytesReadBack : Obligations.LoadedBytesReadBack := by
  intro s a bytes rest hin hfit
  refine ⟨s.fm.load a bytes, run_loadMoves bytes s a rest hin hfit, s.memRead_load a bytes, s.written_load a bytes, ?_⟩
  intro a' hout
  rw [State.fmByte, Memory.lookup_load_outside bytes s.fm hout, State.fmByte]

end Sys2Proof.Machine
end

section
/-! PROOFS. The reads' frame, and the empty binding reset leaves (R26, R55, R58). -/

namespace Sys2Proof.Machine

/-- The three endings of a read: only `OK` moves the cursor, and no ending changes anything but cursor and responses. -/
theorem exec_read_next {i : Instr} {w : Operand} {s t : State} (hi : i = .rdu w ∨ i = .rdi w) (h : exec i s = .next t) :
    t = s.respond .illegal ∨ t = s.respond .bounds ∨ ∃ v, t = (s.advance w.toNat).respond (.ok v) := by
  have hread : ∃ extend, exec i s =
      if legalWidth w then readField w.toNat extend s else .next (s.respond .illegal) := by
    rcases hi with rfl | rfl
    · exact ⟨_, exec_rdu w s⟩
    · exact ⟨_, exec_rdi w s⟩
  obtain ⟨_, heq⟩ := hread
  rcases readField_next (heq.symm.trans h) with ⟨ht, _⟩ | ⟨_, _, ht⟩ | ⟨_, _, _, ht⟩
  · exact .inl ht
  · exact .inr (.inl ht)
  · exact .inr (.inr ht)

/-- Settles O24. -/
theorem readFrame : Obligations.ReadFrame := by
  intro s t w i hi h
  rcases exec_read_next hi h with rfl | rfl | ⟨v, rfl⟩
  · exact ⟨rfl, rfl, rfl, rfl, fun _ => rfl, _, rfl, fun _ => rfl⟩
  · exact ⟨rfl, rfl, rfl, rfl, fun _ => rfl, _, rfl, fun _ => rfl⟩
  · exact ⟨rfl, rfl, rfl, rfl, fun _ => rfl, _, rfl, fun hne => absurd rfl hne⟩

/-- A legal read of more bits than remain answers `BOUNDS`, signed or not (R56). -/
theorem exec_reads_bounds {s : State} {w : Operand} (hw : legalWidth w = true)
    (h : 8 * s.len.toNat - s.bitpos.toNat < w.toNat) :
    exec (.rdu w) s = .next (s.respond .bounds) ∧ exec (.rdi w) s = .next (s.respond .bounds) := by
  rw [exec_rdu, exec_rdi, if_pos hw, if_pos hw]
  exact ⟨readField_bounds _ h, readField_bounds _ h⟩

/-- An advance cannot leave the empty binding: it has no bit to read. -/
theorem CursorAdvances.keeps_empty {s t : State} (h : CursorAdvances s t) (hlen : s.len = 0) (hpos : s.bitpos = 0) :
    t.len = 0 ∧ t.bitpos = 0 := by
  refine ⟨h.len.trans hlen, ?_⟩
  rcases h.inside with hp | hp
  · exact hp.trans hpos
  · rw [hlen] at hp
    exact BitVec.eq_of_toNat_eq (Nat.le_zero.mp hp)

/-- A step that leaves the empty binding is a legal `BIND` with a non-zero length. -/
theorem step_leaves_empty {s t : State} (hlen : s.len = 0) (hpos : s.bitpos = 0) (h : step s = .next t)
    (hleft : t.len ≠ 0 ∨ t.bitpos ≠ 0) :
    ∃ cw rest base len, s.inputs = .command cw :: rest ∧ decode s.cfg.fmSize cw = .legal (.bind base len) ∧ len ≠ 0 := by
  rcases step_cursor h with hadv | ⟨_, _, _, hbound⟩ | ⟨cw, rest, base, len, hin, hdec, _, hbound⟩
  · obtain ⟨hl, hp⟩ := hadv.keeps_empty hlen hpos
    exact absurd hleft (by simp [hl, hp])
  · exact absurd hleft (by simp [hbound.len, hbound.bitpos])
  · refine ⟨cw, rest, base, len, hin, hdec, ?_⟩
    rintro rfl
    exact absurd hleft (by simp [hbound.len, hbound.bitpos])

/-- Settles O13: no bit remains in the empty binding, and only a `BIND` can leave it. -/
theorem resetBindsTheEmptyBuffer : Obligations.ResetBindsTheEmptyBuffer := by
  refine ⟨rfl, rfl, rfl, rfl, rfl, fun _ => rfl, resetHasInv, fun _ _ => ⟨rfl, rfl, rfl, rfl, rfl⟩, ?_⟩
  intro s hlen hpos
  refine ⟨fun w hw1 hw64 => ?_, fun t h hleft => step_leaves_empty hlen hpos h hleft⟩
  have hnone : 8 * s.len.toNat - s.bitpos.toNat < w.toNat := by
    rw [hlen]
    exact Nat.lt_of_le_of_lt (Nat.sub_le _ _) hw1
  exact exec_reads_bounds ((legalWidth_iff w).mpr ⟨hw1, hw64⟩) hnone

end Sys2Proof.Machine
end

section
/-! PROOFS. What a command answers depends on the registers, the bytes of FM and the parameters alone (R22, R24). -/

namespace Sys2Proof.Machine

/-- The two states agree on all a command may depend on; how FM's bytes are held, what was answered and what is pending may
differ. -/
structure State.Agrees (s u : State) : Prop where
  base : u.base = s.base
  len : u.len = s.len
  bitpos : u.bitpos = s.bitpos
  cfg : u.cfg = s.cfg
  fmByte (a : Nat) : u.fmByte a = s.fmByte a

section Agrees
variable {s u : State} (h : s.Agrees u)
include h

theorem State.Agrees.outOfBounds (w : Nat) : u.outOfBounds w = s.outOfBounds w := by
  have hrem : u.bitsRemaining = s.bitsRemaining := by simp only [State.bitsRemaining, h.len, h.bitpos]
  rw [State.outOfBounds, State.outOfBounds, hrem]

theorem State.Agrees.lastReadAddress (w : Nat) : u.lastReadAddress w = s.lastReadAddress w := by
  simp only [State.lastReadAddress, h.base, h.bitpos]

theorem State.Agrees.readBits (p w : Nat) : u.readBits p w = s.readBits p w :=
  State.readBits_congr h.base fun _ _ _ => h.fmByte _

theorem State.Agrees.checksumMatches (base n : Nat) : u.checksumMatches base n = s.checksumMatches base n := by
  have hread : u.memRead base n = s.memRead base n := State.memRead_congr fun _ _ => h.fmByte _
  simp only [State.checksumMatches, hread, h.cfg, h.fmByte]

end Agrees

/-- If the first outcome is a next state of `s`, the second is a next state of `u` with the same response and registers. -/
def AnswersAlike (s u : State) (o o' : Host.Outcome State Fault Refusal) : Prop :=
  ∀ t, o = .next t → ∃ (t' : State) (r : Response), o' = .next t' ∧ t.responses = s.responses ++ [r] ∧
    t'.responses = u.responses ++ [r] ∧ t'.base = t.base ∧ t'.len = t.len ∧ t'.bitpos = t.bitpos

/-- A response that leaves the registers. -/
theorem State.Agrees.answersAlike_respond {s u : State} (h : s.Agrees u) (r : Response) :
    AnswersAlike s u (.next (s.respond r)) (.next (u.respond r)) := by
  rintro _ ⟨⟩
  exact ⟨_, r, rfl, rfl, rfl, h.base, h.len, h.bitpos⟩

theorem AnswersAlike.ite {s u : State} {c : Prop} [Decidable c] {o₁ o₂ o₁' o₂' : Host.Outcome State Fault Refusal}
    (h₁ : AnswersAlike s u o₁ o₁') (h₂ : AnswersAlike s u o₂ o₂') :
    AnswersAlike s u (if c then o₁ else o₂) (if c then o₁' else o₂') := by
  split
  · exact h₁
  · exact h₂

theorem State.Agrees.answersAlike_readField {s u : State} (h : s.Agrees u) (w : Nat) (extend : Nat → Value) :
    AnswersAlike s u (readField w extend s) (readField w extend u) := by
  simp only [readField, State.answer, h.outOfBounds, h.lastReadAddress, h.cfg, h.bitpos, h.readBits]
  refine .ite (h.answersAlike_respond _) (.ite ?fault ?ok)
  case fault => rintro _ ⟨⟩
  case ok =>
    have hadv : (u.advance w).bitpos = (s.advance w).bitpos := by simp only [State.advance, h.bitpos]
    rintro _ ⟨⟩
    exact ⟨_, _, rfl, rfl, rfl, h.base, h.len, hadv⟩

theorem State.Agrees.answersAlike_exec {s u : State} (h : s.Agrees u) (i : Instr) :
    AnswersAlike s u (exec i s) (exec i u) := by
  cases i with
  | rdu w =>
    rw [exec_rdu, exec_rdu]
    exact .ite (h.answersAlike_readField _ _) (h.answersAlike_respond _)
  | rdi w =>
    rw [exec_rdi, exec_rdi]
    exact .ite (h.answersAlike_readField _ _) (h.answersAlike_respond _)
  | bind base len =>
    rw [exec_bind, exec_bind, h.cfg]
    refine .ite ?_ (h.answersAlike_respond _)
    rintro _ ⟨⟩
    exact ⟨_, _, rfl, rfl, rfl, rfl, rfl, rfl⟩
  | pos =>
    rw [exec_pos, exec_pos, h.bitpos]
    exact h.answersAlike_respond _
  | chk base n =>
    rw [exec_chk, exec_chk, h.cfg, h.checksumMatches]
    exact .ite (h.answersAlike_respond _) (h.answersAlike_respond _)

theorem State.Agrees.answersAlike_runCommand {s u : State} (h : s.Agrees u) (cw : CmdWord) :
    AnswersAlike s u (runCommand cw s) (runCommand cw u) := by
  rw [runCommand, runCommand, h.cfg]
  cases decode s.cfg.fmSize cw with
  | legal i => exact h.answersAlike_exec i
  | illegal _ => exact h.answersAlike_respond _

/-- Settles O42, command by command. -/
theorem noHiddenState : Obligations.NoHiddenState := fun _ _ t cw hbase hlen hpos hcfg hbytes hrun =>
  State.Agrees.answersAlike_runCommand ⟨hbase, hlen, hpos, hcfg, hbytes⟩ cw t hrun

end Sys2Proof.Machine
end

section
/-! PROOFS. What of frame memory a read can see (R33, R38, R106), and that two reads in a row are one read cut in two (R35). -/

namespace Sys2Proof.Machine

/-- `RDU` and `RDI` of one width are the shared read, each with its own extension of the field. -/
theorem exec_read {i : Instr} {w : Operand} (hi : i = .rdu w ∨ i = .rdi w) :
    ∃ extend, ∀ s, exec i s = if legalWidth w then readField w.toNat extend s else .next (s.respond .illegal) := by
  rcases hi with rfl | rfl
  · exact ⟨_, exec_rdu w⟩
  · exact ⟨_, exec_rdi w⟩

/-- The memory holds what FM holds at each byte where the `w` bits from the cursor on lie inside the window (R33). -/
def State.SameField (s : State) (m : Memory) (w : Nat) : Prop :=
  ∀ k, s.bitpos.toNat ≤ k → k < s.bitpos.toNat + w → k < 8 * s.len.toNat →
    ({ s with fm := m } : State).fmByte (s.base.toNat + k / 8) = s.fmByte (s.base.toNat + k / 8)

/-- The bounds check reads no byte (R56), so what a read answers depends on the bytes of its field alone. -/
theorem readField_withMemory {w : Nat} {extend : Nat → Value} {s t : State} {m : Memory}
    (hbytes : s.SameField m w) (h : readField w extend s = .next t) :
    readField w extend { s with fm := m } = .next { t with fm := m } := by
  rcases readField_cases w extend s with ⟨hrem, hs⟩ | ⟨_, _, hs⟩ | ⟨hrem, hlast, hs⟩ <;> rw [hs] at h
  · cases h
    exact readField_bounds extend hrem
  · cases h
  · cases h
    have hfield : ({ s with fm := m } : State).readBits s.bitpos.toNat w = s.readBits s.bitpos.toNat w :=
      State.readBits_congr rfl fun k hk hkw => hbytes k hk hkw (by omega)
    rcases readField_cases w extend { s with fm := m } with ⟨hlt, _⟩ | ⟨_, hge, _⟩ | ⟨_, _, hm⟩
    · exact absurd hlt (Nat.not_lt.mpr hrem)
    · exact absurd hlast (Nat.not_lt.mpr hge)
    · rw [hm, hfield]
      rfl

theorem exec_read_withMemory {i : Instr} {w : Operand} (hi : i = .rdu w ∨ i = .rdi w) {s t : State} {m : Memory}
    (hbytes : s.SameField m w.toNat) (h : exec i s = .next t) : exec i { s with fm := m } = .next { t with fm := m } := by
  obtain ⟨extend, hexec⟩ := exec_read hi
  rw [hexec] at h ⊢
  split at h
  · next hw =>
    rw [if_pos hw]
    exact readField_withMemory hbytes h
  · next hw =>
    cases h
    rw [if_neg hw]
    rfl

/-- A read that fits gives a next state (R56, R57). -/
theorem exec_read_fits {i : Instr} {w : Operand} (hi : i = .rdu w ∨ i = .rdi w) {s : State} (hw : 1 ≤ w.toNat)
    (hw' : w.toNat ≤ 64) (hin : s.windowInside) (hfit : s.bitpos.toNat + w.toNat ≤ 8 * s.len.toNat) :
    ∃ t, exec i s = .next t := by
  obtain ⟨extend, hexec⟩ := exec_read hi
  rw [hexec, if_pos ((legalWidth_iff w).mpr ⟨hw, hw'⟩)]
  exact ⟨_, readField_fits extend hw hin hfit⟩

/-- An unsigned read that fits answers its field and advances the cursor (R55). -/
theorem exec_rdu_fits {s : State} {w : Operand} (hw : 1 ≤ w.toNat) (hw' : w.toNat ≤ 64) (hin : s.windowInside)
    (hfit : s.bitpos.toNat + w.toNat ≤ 8 * s.len.toNat) :
    exec (.rdu w) s =
      .next ((s.advance w.toNat).respond (.ok (zext64 (s.readBits s.bitpos.toNat w.toNat)))) := by
  rw [exec_rdu, if_pos ((legalWidth_iff w).mpr ⟨hw, hw'⟩)]
  exact readField_fits zext64 hw hin hfit

/-- A field of a legal width fits the value lines (R62 a). -/
theorem zext64_readBits_toNat (s : State) (p : Nat) {w : Nat} (hw : w ≤ 64) :
    (zext64 (s.readBits p w)).toNat = s.readBits p w :=
  zext64_toNat (Nat.lt_of_lt_of_le (s.readBits_lt p w) (Nat.pow_le_pow_right (by decide) hw))

/-- Settles O23: the bytes of the field are all that the assembly reads. -/
theorem readFootprint : Obligations.ReadFootprint := by
  intro s m w i hw hw' hin hfit hi first last
  refine ⟨by omega, by omega, fun hbytes => ?_⟩
  obtain ⟨t, ht⟩ := exec_read_fits hi hw hw' hin hfit
  exact ⟨t, ht, exec_read_withMemory hi (fun k _ _ _ => hbytes _ (by omega) (by omega)) ht⟩

/-- Settles O44: the field of a read that answers `OK` lies inside the window, where the write has changed nothing. -/
theorem writesOutsideTheWindowAreUnseen : Obligations.WritesOutsideTheWindowAreUnseen := by
  intro s u t a b w i hout hwrite hi h
  obtain ⟨_, rfl⟩ := State.hostWrite_next hwrite
  exact exec_read_withMemory hi (fun k _ _ _ => State.fmByte_write_other s b (by omega)) h

/-- Settles O22: the two fields are the parts of one field, and both ways advance the cursor by the summed width. -/
theorem readsConcatenate : Obligations.ReadsConcatenate := by
  intro s w1 w2 hin h1 h2 h64 hfit
  have hsum : (w1 + w2).toNat = w1.toNat + w2.toNat := BitVec.toNat_add_of_lt (by omega)
  have hpos1 : (s.advance w1.toNat).bitpos.toNat = s.bitpos.toNat + w1.toNat :=
    State.advance_bitpos_toNat s _ (by omega)
  have hpos2 : ((s.advance w1.toNat).advance w2.toNat).bitpos.toNat = s.bitpos.toNat + w1.toNat + w2.toNat := by
    rw [State.advance_bitpos_toNat _ _ (by rw [hpos1]; exact hfit), hpos1]
  have hpos : (s.advance (w1 + w2).toNat).bitpos.toNat = s.bitpos.toNat + w1.toNat + w2.toNat := by
    rw [State.advance_bitpos_toNat _ _ (by omega), hsum, Nat.add_assoc]
  have hread2 := exec_rdu_fits (s := (s.advance w1.toNat).respond
    (.ok (zext64 (s.readBits s.bitpos.toNat w1.toNat)))) h2 (by omega) hin
    (by rw [State.respond_bitpos, hpos1]; exact hfit)
  refine ⟨_, _, _, _, _, _, exec_rdu_fits h1 (by omega) hin (by omega), rfl, hread2, rfl,
    exec_rdu_fits (by omega) (by omega) hin (by omega), rfl, ?value, hpos2, BitVec.eq_of_toNat_eq (hpos.trans hpos2.symm)⟩
  rw [zext64_readBits_toNat _ _ (by omega), zext64_readBits_toNat _ _ (by omega), zext64_readBits_toNat _ _ (by omega),
    State.respond_readBits, State.advance_readBits, State.respond_bitpos, hpos1, hsum, State.readBits_add]

end Sys2Proof.Machine
end

section
/-! PROOFS. What commands leave of frame memory (R28), and what a run leaves of a range no pending event writes into (R38,
R106). -/

namespace Sys2Proof.Machine

/-- Settles O28: of the five endings of a command, three are open to `BIND`, `POS` and `CHK`. -/
theorem controlAndCheckFrame : Obligations.ControlAndCheckFrame := by
  intro s t i hnoRead h
  obtain ⟨hfm, hcfg, hinputs⟩ := exec_frame h
  refine ⟨hcfg, hinputs, State.fmByte_of_fm hfm, ?_⟩
  have notRead {w : Operand} (hi : i = .rdu w ∨ i = .rdi w) : False := hi.elim (hnoRead w).1 (hnoRead w).2
  rcases exec_next h with ⟨rfl, _⟩ | ⟨_, hi, _⟩ | ⟨_, _, hi, _⟩ | ⟨base, len, hi, _, rfl⟩ | ⟨v, _, rfl⟩
  · exact ⟨⟨.illegal, rfl, by simp⟩, fun _ => ⟨rfl, rfl, rfl⟩⟩
  · exact (notRead hi).elim
  · exact (notRead hi).elim
  · exact ⟨⟨.ok 0, rfl, by simp⟩, fun hnoBind => absurd hi (hnoBind base len)⟩
  · exact ⟨⟨.ok v, rfl, by simp⟩, fun _ => ⟨rfl, rfl, rfl⟩⟩

theorem exec_pos_withMemory {s t : State} (h : exec .pos s = .next t) (m : Memory) :
    exec .pos { s with fm := m } = .next { t with fm := m } := by
  cases h
  rfl

theorem exec_bind_withMemory {base len : Operand} {s t : State} (h : exec (.bind base len) s = .next t) (m : Memory) :
    exec (.bind base len) { s with fm := m } = .next { t with fm := m } := by
  rw [exec_bind] at h ⊢
  split at h <;> cases h
  · next hw => exact if_pos hw
  · next hw => exact if_neg hw

/-- Settles O40: decode sees no byte, and neither do `BIND` and `POS`. -/
theorem noCommandWritesFrameMemory : Obligations.NoCommandWritesFrameMemory := by
  intro s t cw h
  obtain ⟨hfm, _, _⟩ := runCommand_frame h
  refine ⟨hfm, State.fmByte_of_fm hfm, ?_⟩
  have runsAs {i : Instr} (hdec : decode s.cfg.fmSize cw = .legal i) (m : Memory) :
      runCommand cw { s with fm := m } = exec i { s with fm := m } := runCommand_of_legal hdec
  rintro (hdec | ⟨base, len, hdec⟩) m <;> rw [runCommand_of_legal hdec] at h <;> rw [runsAs hdec m]
  · exact exec_pos_withMemory h m
  · exact exec_bind_withMemory h m

/-- A step adds no pending event. -/
theorem step_inputs_subset {s t : State} (h : step s = .next t) : t.inputs ⊆ s.inputs := by
  rcases step_next h with rfl | ⟨cw, rest, hin, hrun⟩ | ⟨_, _, rest, hin, _, rfl⟩ | ⟨_, rest, hin, rfl⟩
  · exact List.Subset.refl _
  · obtain ⟨_, _, hinputs⟩ := runCommand_frame hrun
    exact hinputs ▸ hin ▸ List.subset_cons_self _ _
  · exact hin ▸ List.subset_cons_self _ _
  · exact hin ▸ List.subset_cons_self _ _

theorem stableRange_of_subset {lo n : Nat} {es es' : List Event} (hsub : es' ⊆ es) (h : stableRange lo n es = true) :
    stableRange lo n es' = true :=
  List.all_eq_true.mpr fun e he => List.all_eq_true.mp h e (hsub he)

/-- A step keeps the bytes of a range its event spares. -/
theorem step_keeps_stableRange {s t : State} {lo n a : Nat} (hstable : stableRange lo n s.inputs = true)
    (h : step s = .next t) (hlo : lo ≤ a) (hhi : a < lo + n) : t.fmByte a = s.fmByte a := by
  by_contra hne
  obtain ⟨b, rest, hin⟩ := step_fmByte h hne
  have hspared : (Event.fmWr a b).sparesRange lo n = true :=
    List.all_eq_true.mp hstable _ (hin ▸ List.mem_cons_self)
  simp only [Event.sparesRange, Bool.or_eq_true, decide_eq_true_eq] at hspared
  omega

/-- A run of `k + 1` steps that gives a state is a step and a run of `k`. -/
theorem run_succ_next {k : Nat} {s t : State} (h : Sys2Proof.core.run (k + 1) s = .next t) :
    ∃ u, step s = .next u ∧ Sys2Proof.core.run k u = .next t := by
  cases hstep : Sys2Proof.core.step s with
  | next u => exact ⟨u, hstep, (run_succ_of_step k hstep).symm.trans h⟩
  | fault r => simp [Host.Core.run, hstep] at h
  | refused r => simp [Host.Core.run, hstep] at h

/-- Settles O45, by induction on the number of steps. -/
theorem stableRangesKeepTheirBytes : Obligations.StableRangesKeepTheirBytes := by
  intro k
  induction k with
  | zero =>
    intro s t lo n _ hrun a _ _
    cases hrun
    rfl
  | succ k ih =>
    intro s t lo n hstable hrun a hlo hhi
    obtain ⟨u, hstep, hrest⟩ := run_succ_next hrun
    have hstable' := stableRange_of_subset (step_inputs_subset hstep) hstable
    exact (ih u t lo n hstable' hrest a hlo hhi).trans (step_keeps_stableRange hstable hstep hlo hhi)

end Sys2Proof.Machine
end

section
/-! PROOFS. A field as a number: the read loop is a Horner scheme over the stream bits, and over whole bytes it gives the
window's big-endian number (R29 to R31). -/

namespace Sys2Proof.Machine

/-- One step of the Horner scheme: a big-endian number with one more digit. -/
theorem sum_bigEndian_succ (digit : Nat → Nat) (b n : Nat) :
    ∑ j ∈ Finset.range (n + 1), digit j * b ^ (n + 1 - 1 - j) =
      b * ∑ j ∈ Finset.range n, digit j * b ^ (n - 1 - j) + digit n := by
  rw [Finset.sum_range_succ, Nat.add_sub_cancel, Nat.sub_self, Nat.pow_zero, Nat.mul_one, Finset.mul_sum]
  congr 1
  refine Finset.sum_congr rfl fun j hj => ?_
  obtain ⟨d, rfl⟩ := Nat.exists_eq_add_of_lt (Finset.mem_range.mp hj)
  rw [show j + d + 1 - j = d + 1 by omega, show j + d + 1 - 1 - j = d by omega, Nat.pow_succ]
  ring

/-- The model's bit is the spec's quotient and remainder (R9, R30). -/
theorem State.bufBit_eq_streamBit (s : State) (k : Nat) : s.bufBit k = s.streamBit k :=
  Nat.toNat_testBit _ _

theorem State.readBits_eq_fieldSum (s : State) (p w : Nat) : s.readBits p w = s.fieldSum p w := by
  induction w with
  | zero => rfl
  | succ w ih =>
    rw [State.readBits, ih, State.bufBit_eq_streamBit]
    exact (sum_bigEndian_succ (fun i => s.streamBit (p + i)) 2 w).symm

/-- The first `k` bits of a byte of the window are its top `k` bits (R29). -/
theorem State.readBits_byte_top (s : State) (j : Nat) {k : Nat} (hk : k ≤ 8) :
    s.readBits (8 * j) k = (s.fmByte (s.base.toNat + j)).toNat / 2 ^ (8 - k) := by
  induction k with
  | zero => exact (Nat.div_eq_of_lt (BitVec.isLt _)).symm
  | succ k ih =>
    rw [State.readBits, ih (by omega), State.bufBit_eq_streamBit, State.streamBit, show (8 * j + k) / 8 = j by omega,
      show (8 * j + k) % 8 = k by omega, show 8 - k = 7 - k + 1 by omega, show 8 - (k + 1) = 7 - k by omega,
      Nat.pow_succ, ← Nat.div_div_eq_div_mul]
    exact Nat.div_add_mod _ 2

theorem State.readBits_byte (s : State) (j : Nat) : s.readBits (8 * j) 8 = (s.fmByte (s.base.toNat + j)).toNat := by
  rw [State.readBits_byte_top s j (Nat.le_refl 8), Nat.sub_self, Nat.pow_zero, Nat.div_one]

/-- The bits of the first `n` bytes of the window are the big-endian number of these bytes. -/
theorem State.readBits_bytes (s : State) (n : Nat) :
    s.readBits 0 (8 * n) =
      ∑ j ∈ Finset.range n, (s.fmByte (s.base.toNat + j)).toNat * 256 ^ (n - 1 - j) := by
  induction n with
  | zero => rfl
  | succ n ih =>
    rw [sum_bigEndian_succ (fun j => (s.fmByte (s.base.toNat + j)).toNat) 256 n, ← ih, Nat.mul_succ, State.readBits_add,
      Nat.zero_add, State.readBits_byte, Nat.mul_comm, show 2 ^ 8 = 256 from rfl]

theorem State.readBits_window (s : State) : s.readBits 0 (8 * s.len.toNat) = s.windowNumber :=
  s.readBits_bytes s.len.toNat

/-- A field is a slice of every longer read from bit 0 on: drop the bits after it, then the bits before it. -/
theorem State.readBits_slice (s : State) {p w n : Nat} (h : p + w ≤ n) :
    s.readBits p w = s.readBits 0 n / 2 ^ (n - p - w) % 2 ^ w := by
  obtain ⟨r, rfl⟩ := Nat.exists_eq_add_of_le h
  have htop : s.readBits 0 (p + w + r) / 2 ^ r = s.readBits 0 p * 2 ^ w + s.readBits p w := by
    rw [State.readBits_add, Nat.add_comm, Nat.add_mul_div_right _ _ (Nat.two_pow_pos r),
      Nat.div_eq_of_lt (s.readBits_lt _ r), Nat.zero_add, State.readBits_add, Nat.zero_add]
  rw [show p + w + r - p - w = r by omega, htop, Nat.mul_add_mod_self_right, Nat.mod_eq_of_lt (s.readBits_lt p w)]

/-- R31's worked reads over the bytes `06 40`. -/
theorem State.readBits_typeCode {s : State} (h0 : s.fmByte s.base.toNat = 0x06#8)
    (h1 : s.fmByte (s.base.toNat + 1) = 0x40#8) :
    s.readBits 0 12 = 0x064 ∧ s.readBits 4 8 = 0x64 ∧ s.readBits 0 4 = 0x0 := by
  have hbyte : s.readBits 0 8 = 0x06 := by simpa [h0] using s.readBits_byte 0
  have hhigh : s.readBits 8 4 = 0x4 := by simpa [h1] using s.readBits_byte_top 1 (k := 4) (by decide)
  have hfour : s.readBits 0 4 = 0x0 := by simpa [h0] using s.readBits_byte_top 0 (k := 4) (by decide)
  have htwelve : s.readBits 0 12 = 0x064 := by simpa [hbyte, hhigh] using s.readBits_add 0 8 4
  have hcut := s.readBits_add 0 4 8
  simp only [Nat.zero_add, htwelve, hfour] at hcut
  exact ⟨htwelve, by omega, hfour⟩

/-- Settles O16: the window's number is the read of all its bits. -/
theorem fieldIsASliceOfTheWindowNumber : Obligations.FieldIsASliceOfTheWindowNumber := by
  refine ⟨fun s p w hfit => ⟨s.readBits_eq_fieldSum p w, ?_⟩, fun s => State.readBits_typeCode⟩
  rw [← s.readBits_window]
  exact s.readBits_slice hfit

end Sys2Proof.Machine
end

section
/-! PROOFS. A frame that stands in FM (R41, R43): its check passes, and its payload is read through the window bound over it
(R75, R86). -/

namespace Sys2Proof.Machine

theorem State.memRead_add (s : State) (a m n : Nat) : s.memRead a (m + n) = s.memRead a m ++ s.memRead (a + m) n := by
  simp only [State.memRead_eq_map, List.range_add, List.map_append, List.map_map, Function.comp_def, Nat.add_assoc]

@[simp] theorem State.respond_memRead (s : State) (r : Response) (a n : Nat) :
    (s.respond r).memRead a n = s.memRead a n := State.memRead_congr fun _ _ => rfl

@[simp] theorem State.bindWindow_memRead (s : State) (base len : Operand) (a n : Nat) :
    (s.bindWindow base len).memRead a n = s.memRead a n := State.memRead_congr fun _ _ => rfl

/-- A range that holds two sequences one after the other holds each in its place. -/
theorem State.memRead_append {s : State} {a n : Nat} {xs ys : List Byte} (h : s.memRead a n = xs ++ ys) :
    s.memRead a xs.length = xs ∧ s.memRead (a + xs.length) ys.length = ys := by
  have hn : n = xs.length + ys.length := by rw [← s.memRead_length a n, h, List.length_append]
  rw [hn, State.memRead_add] at h
  exact List.append_inj h (s.memRead_length a _)

/-- A checksum that follows the bytes it covers matches them (R71, R74). -/
theorem State.checksumMatches_of_memRead {s : State} {a n : Nat} {covered : List Byte}
    (h : s.memRead a n = covered ++ (checksumOf s.cfg.checksum covered).bytes) :
    s.checksumMatches a covered.length = true := by
  obtain ⟨hcovered, htrailer⟩ := State.memRead_append h
  rw [State.checksumMatches_iff, hcovered]
  generalize checksumOf s.cfg.checksum covered = c at htrailer ⊢
  simp only [Checksum.bytes, List.length_cons, List.length_nil, State.memRead, List.cons.injEq, and_true] at htrailer
  obtain ⟨h0, h1, h2⟩ := htrailer
  simp only [h0, h1, h2]

/-- A `CHK` inside FM whose checksum matches answers 1 (R71). -/
theorem exec_chk_matching {s : State} {base n : Operand} (hrange : base.toNat + n.toNat + 3 ≤ s.cfg.fmSize)
    (hmatch : s.checksumMatches base.toNat n.toNat = true) :
    exec (.chk base n) s = .next (s.respond (.ok 1)) := by
  rw [exec_chk, if_pos ((legalCover_iff _ _ _).mpr hrange), hmatch, if_pos rfl]

theorem legalWindow_iff (fmSize : Nat) (base len : Operand) :
    legalWindow fmSize base len = true ↔ base.toNat + len.toNat ≤ fmSize := by
  simp [legalWindow]

/-- A `BIND` of a window inside FM binds it and answers 0 (R65). -/
theorem exec_bind_inside {s : State} {base len : Operand} (hrange : base.toNat + len.toNat ≤ s.cfg.fmSize) :
    exec (.bind base len) s = .next ((s.bindWindow base len).respond (.ok 0)) := by
  rw [exec_bind, if_pos ((legalWindow_iff _ _ _).mpr hrange)]

/-- A requester goes on with the value of a command that answers `OK` (R87). -/
theorem run_issueField_ok {α : Type} {field : String} {i : Instr} {k : Value → Requester (DecodeResult α)} {s t : State}
    {v : Value} (h : exec i s = .next (t.respond (.ok v))) :
    (issueField field i k).run s = (k v).run (t.respond (.ok v)) := by
  simp only [issueField, Requester.run, h, State.respond_lastResponse]

theorem length_frameCovered (payload : List Byte) : (frameCovered payload).length = payload.length + 3 := by
  rw [frameCovered, List.length_append, Nat.add_comm]
  rfl

/-- The payload of a frame stands behind three bytes of header (R41). -/
theorem memRead_payload_of_frame {s : State} {choice : ChecksumChoice} {a n : Nat} {payload : List Byte}
    (h : s.memRead a n = frameBytes choice payload) : s.memRead (a + 3) payload.length = payload := by
  obtain ⟨hcovered, _⟩ := State.memRead_append h
  obtain ⟨_, hpayload⟩ := State.memRead_append hcovered
  exact hpayload

/-- The length operand of `FRAMECHK` is the number of covered bytes (R86). -/
theorem framechk_operand_toNat {n : Nat} (hn : n ≤ 1023) :
    ((BitVec.ofNat 10 n).setWidth 12 + 3 : Operand).toNat = n + 3 := by
  rw [BitVec.toNat_add, BitVec.toNat_setWidth, BitVec.toNat_ofNat, show BitVec.toNat (3 : Operand) = 3 from rfl]
  omega

/-- Settles O52: the checksum follows the bytes it covers, and the window bound lies over the payload. -/
theorem frameInPlacePassesItsCheck : Obligations.FrameInPlacePassesItsCheck := by
  intro s f payload hlen hfit ⟨_, hsize⟩ hframe
  constructor
  · have hn := framechk_operand_toNat hlen
    have hmatch := State.checksumMatches_of_memRead hframe
    rw [length_frameCovered, ← hn] at hmatch
    exact run_issueField_ok (exec_chk_matching (by omega) hmatch)
  · have hbase : (f + 3 : Operand).toNat = f.toNat + 3 := BitVec.toNat_add_of_lt (show f.toNat + 3 < 2 ^ 12 by omega)
    have hn : (BitVec.ofNat 12 payload.length).toNat = payload.length := by
      rw [BitVec.toNat_ofNat]
      omega
    refine ⟨_, exec_bind_inside (by omega), ?_, rfl⟩
    rw [State.respond_memRead, State.bindWindow_memRead, State.respond_base, State.respond_len, State.bindWindow_base,
      State.bindWindow_len, hbase, hn]
    exact memRead_payload_of_frame hframe

end Sys2Proof.Machine
end

section
/-! PROOFS. The decoder and the encoder are two sides of one relation between words and commands (R44, R45, R47, R48): a word
is legal exactly when it is the word of a well-formed command. -/

namespace Sys2Proof.Machine

open Sys2Proof.Laws.EncodedFields (opcodeOf operandA operandB packWord_fields)

/-- The word's four fields are the opcode of the command, a zero `Z`, and the operands of the command (R44, R45, R47). -/
structure HasFieldsOf (cw : CmdWord) (i : Instr) : Prop where
  op : opField cw = opcodeOf i
  z : zField cw = 0
  a : aField cw = operandA i
  b : bField cw = operandB i

theorem encode_eq_packWord (i : Instr) : encode i = packWord (opcodeOf i) 0 (operandA i) (operandB i) := by
  cases i <;> rfl

theorem encode_hasFieldsOf (i : Instr) : HasFieldsOf (encode i) i := by
  rw [encode_eq_packWord]
  obtain ⟨hop, hz, ha, hb⟩ := packWord_fields (opcodeOf i) 0 (operandA i) (operandB i)
  exact ⟨hop, hz, ha, hb⟩

/-- No bit of a word stands outside the four fields (R44). -/
theorem packWord_of_fields (cw : CmdWord) : packWord (opField cw) (zField cw) (aField cw) (bField cw) = cw := by
  have htop : opField cw ++ zField cw = cw.extractLsb' 24 8 :=
    BitVec.extractLsb'_append_extractLsb'_eq_extractLsb' rfl
  have hnoB : opField cw ++ zField cw ++ aField cw = cw.extractLsb' 12 20 :=
    htop ▸ BitVec.extractLsb'_append_extractLsb'_eq_extractLsb' rfl
  have hall : packWord (opField cw) (zField cw) (aField cw) (bField cw) = cw.extractLsb' 0 32 :=
    (congrArg (· ++ bField cw) hnoB).trans (BitVec.extractLsb'_append_extractLsb'_eq_extractLsb' rfl)
  exact hall.trans BitVec.extractLsb'_eq_self

/-- The fields determine the word. -/
theorem HasFieldsOf.encode_eq {cw : CmdWord} {i : Instr} (h : HasFieldsOf cw i) : encode i = cw := by
  rw [encode_eq_packWord, ← h.op, ← h.z, ← h.a, ← h.b, packWord_of_fields]

theorem decodeRead_eq_legal_iff (read : Operand → Instr) (a b : Operand) (i : Instr) :
    decodeRead read a b = .legal i ↔ a = 0 ∧ legalWidth b = true ∧ read b = i := by
  unfold decodeRead
  split
  · next ha => exact iff_of_false nofun fun ⟨ha0, _⟩ => ha ha0
  · next ha =>
    split
    · next hb => simp [not_not.mp ha, hb]
    · next hb => exact iff_of_false nofun fun ⟨_, hw, _⟩ => hb hw

/-- Everything a legal decode says, in the order of the decoder's checks (R48). -/
theorem fields_of_decode {fmSize : Nat} {cw : CmdWord} {i : Instr} (h : decode fmSize cw = .legal i) :
    i.wellFormed fmSize = true ∧ HasFieldsOf cw i := by
  unfold decode at h
  split at h
  · cases h
  · next hz =>
    have hz : zField cw = 0 := not_not.mp hz
    dsimp only at h
    split at h
    · next hop =>
      obtain ⟨ha, hw, rfl⟩ := (decodeRead_eq_legal_iff _ _ _ _).mp h
      exact ⟨hw, BitVec.eq_of_toNat_eq hop, hz, ha, rfl⟩
    · next hop =>
      obtain ⟨ha, hw, rfl⟩ := (decodeRead_eq_legal_iff _ _ _ _).mp h
      exact ⟨hw, BitVec.eq_of_toNat_eq hop, hz, ha, rfl⟩
    · next hop =>
      split at h <;> cases h
      next hfit => exact ⟨hfit, BitVec.eq_of_toNat_eq hop, hz, rfl, rfl⟩
    · next hop =>
      split at h <;> cases h
      next hab =>
        obtain ⟨ha, hb⟩ := not_or.mp hab
        exact ⟨rfl, BitVec.eq_of_toNat_eq hop, hz, not_not.mp ha, not_not.mp hb⟩
    · next hop =>
      split at h <;> cases h
      next hfit => exact ⟨hfit, BitVec.eq_of_toNat_eq hop, hz, rfl, rfl⟩
    · cases h

/-- A word with the fields of a well-formed command passes the decoder's checks. -/
theorem HasFieldsOf.decode_eq {fmSize : Nat} {cw : CmdWord} {i : Instr} (h : HasFieldsOf cw i)
    (hwf : i.wellFormed fmSize = true) : decode fmSize cw = .legal i := by
  unfold decode
  rw [h.op, h.z, h.a, h.b, if_neg (not_not.mpr rfl)]
  cases i with
  | rdu w => exact (decodeRead_eq_legal_iff _ _ _ _).mpr ⟨rfl, hwf, rfl⟩
  | rdi w => exact (decodeRead_eq_legal_iff _ _ _ _).mpr ⟨rfl, hwf, rfl⟩
  | bind base len => exact if_pos hwf
  | pos => rfl
  | chk base n => exact if_pos hwf

theorem decode_eq_legal_iff {fmSize : Nat} {cw : CmdWord} {i : Instr} :
    decode fmSize cw = .legal i ↔ i.wellFormed fmSize = true ∧ HasFieldsOf cw i :=
  ⟨fields_of_decode, fun ⟨hwf, hfields⟩ => hfields.decode_eq hwf⟩

/-- Settles O2: an encoding has the fields of its command. -/
theorem decodeOfEncode : Obligations.DecodeOfEncode := fun _ i hwf =>
  (encode_hasFieldsOf i).decode_eq hwf

/-- Settles O3: a legal word has the fields of the command it decodes to, and the fields are the whole word. -/
theorem encodeOfDecode : Obligations.EncodeOfDecode := by
  intro fmSize cw i hdec
  obtain ⟨hwf, hfields⟩ := fields_of_decode hdec
  exact ⟨hwf, hfields.encode_eq⟩

theorem opField_toNat (cw : CmdWord) : (opField cw).toNat = cw.toNat / 2 ^ 28 := by
  rw [opField, BitVec.extractLsb'_toNat, Nat.shiftRight_eq_div_pow]
  omega

theorem zField_toNat (cw : CmdWord) : (zField cw).toNat = cw.toNat / 2 ^ 24 % 16 := by
  rw [zField, BitVec.extractLsb'_toNat, Nat.shiftRight_eq_div_pow]

theorem aField_toNat (cw : CmdWord) : (aField cw).toNat = cw.toNat / 4096 % 4096 := by
  rw [aField, BitVec.extractLsb'_toNat, Nat.shiftRight_eq_div_pow]

theorem bField_toNat (cw : CmdWord) : (bField cw).toNat = cw.toNat % 4096 := by
  rw [bField, BitVec.extractLsb'_toNat, Nat.shiftRight_zero]

/-- Settles O6: the operands are the fields `A` and `B` themselves. -/
theorem operandsAreTheirFields : Obligations.OperandsAreTheirFields := by
  intro fmSize cw
  rw [← aField_toNat, ← bField_toNat]
  constructor
  · rintro w (hdec | hdec) <;> obtain ⟨_, hfields⟩ := fields_of_decode hdec <;> exact congrArg _ hfields.b.symm
  · rintro base len (hdec | hdec) <;> obtain ⟨_, hfields⟩ := fields_of_decode hdec <;>
      exact ⟨congrArg _ hfields.a.symm, congrArg _ hfields.b.symm⟩

/-- Settles O1. -/
theorem workedWordsDecode : Obligations.WorkedWordsDecode := by
  unfold Obligations.WorkedWordsDecode
  decide

end Sys2Proof.Machine
end

section
/-! PROOFS. The legal words of each command as numbers (R46, R49), and the match and mask pairs of the opcode map (R47). -/

namespace Sys2Proof.Machine

open Sys2Proof.Laws.EncodedFields (opcodeOf operandA operandB)

theorem hasFieldsOf_iff {cw : CmdWord} {i : Instr} :
    HasFieldsOf cw i ↔ cw.toNat / 2 ^ 28 = (opcodeOf i).toNat ∧ cw.toNat / 2 ^ 24 % 16 = 0 ∧
      cw.toNat / 4096 % 4096 = (operandA i).toNat ∧ cw.toNat % 4096 = (operandB i).toNat := by
  have hz : zField cw = 0 ↔ (zField cw).toNat = 0 := BitVec.toNat_inj.symm
  rw [← opField_toNat, ← zField_toNat, ← aField_toNat, ← bField_toNat, BitVec.toNat_inj, ← hz, BitVec.toNat_inj,
    BitVec.toNat_inj]
  exact ⟨fun h => ⟨h.op, h.z, h.a, h.b⟩, fun ⟨hop, hz, ha, hb⟩ => ⟨hop, hz, ha, hb⟩⟩

/-- The words of a command with one operand: `OP` and the clear fields `Z` and `A`, then the operand in `B`. -/
theorem exists_decode_one_iff {fmSize op : Nat} {cw : CmdWord} {cmd : Operand → Instr}
    (hop : ∀ w, (opcodeOf (cmd w)).toNat = op) (hA : ∀ w, (operandA (cmd w)).toNat = 0) (hB : ∀ w, operandB (cmd w) = w) :
    (∃ w, decode fmSize cw = .legal (cmd w)) ↔
      cw.toNat / 2 ^ 12 = op * 2 ^ 16 ∧ (cmd (bField cw)).wellFormed fmSize = true := by
  have hword : HasFieldsOf cw (cmd (bField cw)) ↔ cw.toNat / 2 ^ 12 = op * 2 ^ 16 := by
    rw [hasFieldsOf_iff, hop, hA, hB, bField_toNat]
    omega
  rw [← hword, and_comm, ← decode_eq_legal_iff]
  refine ⟨fun ⟨w, hdec⟩ => ?_, fun hdec => ⟨_, hdec⟩⟩
  obtain ⟨_, hfields⟩ := fields_of_decode hdec
  rwa [hfields.b, hB]

/-- The words of a command with two operands: `OP` and the clear field `Z`, then the operands in `A` and `B`. -/
theorem exists_decode_two_iff {fmSize op : Nat} {cw : CmdWord} {cmd : Operand → Operand → Instr}
    (hop : ∀ a b, (opcodeOf (cmd a b)).toNat = op) (hA : ∀ a b, operandA (cmd a b) = a)
    (hB : ∀ a b, operandB (cmd a b) = b) :
    (∃ a b, decode fmSize cw = .legal (cmd a b)) ↔
      cw.toNat / 2 ^ 24 = op * 2 ^ 4 ∧ (cmd (aField cw) (bField cw)).wellFormed fmSize = true := by
  have hword : HasFieldsOf cw (cmd (aField cw) (bField cw)) ↔ cw.toNat / 2 ^ 24 = op * 2 ^ 4 := by
    rw [hasFieldsOf_iff, hop, hA, hB, aField_toNat, bField_toNat]
    omega
  rw [← hword, and_comm, ← decode_eq_legal_iff]
  refine ⟨fun ⟨a, b, hdec⟩ => ?_, fun hdec => ⟨_, _, hdec⟩⟩
  obtain ⟨_, hfields⟩ := fields_of_decode hdec
  rwa [hfields.a, hfields.b, hA, hB]

theorem exists_decode_rdu_iff {fmSize : Nat} {cw : CmdWord} :
    (∃ w, decode fmSize cw = .legal (.rdu w)) ↔
      cw.toNat / 2 ^ 12 = 1 * 2 ^ 16 ∧ 1 ≤ cw.toNat % 4096 ∧ cw.toNat % 4096 ≤ 64 := by
  rw [← bField_toNat, ← legalWidth_iff]
  exact exists_decode_one_iff (fun _ => rfl) (fun _ => rfl) (fun _ => rfl)

theorem exists_decode_rdi_iff {fmSize : Nat} {cw : CmdWord} :
    (∃ w, decode fmSize cw = .legal (.rdi w)) ↔
      cw.toNat / 2 ^ 12 = 2 * 2 ^ 16 ∧ 1 ≤ cw.toNat % 4096 ∧ cw.toNat % 4096 ≤ 64 := by
  rw [← bField_toNat, ← legalWidth_iff]
  exact exists_decode_one_iff (fun _ => rfl) (fun _ => rfl) (fun _ => rfl)

theorem exists_decode_bind_iff {fmSize : Nat} {cw : CmdWord} :
    (∃ base len, decode fmSize cw = .legal (.bind base len)) ↔
      cw.toNat / 2 ^ 24 = 3 * 2 ^ 4 ∧ cw.toNat / 4096 % 4096 + cw.toNat % 4096 ≤ fmSize := by
  rw [← aField_toNat, ← bField_toNat, ← legalWindow_iff]
  exact exists_decode_two_iff (fun _ _ => rfl) (fun _ _ => rfl) (fun _ _ => rfl)

theorem decode_pos_iff {fmSize : Nat} {cw : CmdWord} :
    decode fmSize cw = .legal .pos ↔ cw.toNat = 4 * 2 ^ 28 := by
  have hword : HasFieldsOf cw .pos ↔ cw.toNat = 4 * 2 ^ 28 := by
    rw [hasFieldsOf_iff]
    change cw.toNat / 2 ^ 28 = 4 ∧ _ ∧ _ = 0 ∧ _ = 0 ↔ _
    omega
  rw [← hword, decode_eq_legal_iff]
  exact and_iff_right rfl

theorem exists_decode_chk_iff {fmSize : Nat} {cw : CmdWord} :
    (∃ base n, decode fmSize cw = .legal (.chk base n)) ↔
      cw.toNat / 2 ^ 24 = 5 * 2 ^ 4 ∧ cw.toNat / 4096 % 4096 + cw.toNat % 4096 + 3 ≤ fmSize := by
  rw [← aField_toNat, ← bField_toNat, ← legalCover_iff]
  exact exists_decode_two_iff (fun _ _ => rfl) (fun _ _ => rfl) (fun _ _ => rfl)

/-- A word is illegal exactly when it decodes to none of the five commands. -/
theorem instr?_eq_none_iff (d : Decoded) :
    d.instr? = none ↔ ¬(∃ w, d = .legal (.rdu w)) ∧ ¬(∃ w, d = .legal (.rdi w)) ∧
      ¬(∃ base len, d = .legal (.bind base len)) ∧ d ≠ .legal .pos ∧ ¬(∃ base n, d = .legal (.chk base n)) := by
  cases d with
  | illegal why => simp [Decoded.instr?]
  | legal i => cases i <;> simp [Decoded.instr?]

/-- R49 over the numbers of the fields. -/
theorem decode_instr?_eq_none_iff {fmSize : Nat} {cw : CmdWord} :
    (decode fmSize cw).instr? = none ↔
      cw.toNat / 2 ^ 24 % 16 ≠ 0 ∨ (cw.toNat / 2 ^ 28 = 0 ∨ 6 ≤ cw.toNat / 2 ^ 28) ∨
      ((cw.toNat / 2 ^ 28 = 1 ∨ cw.toNat / 2 ^ 28 = 2) ∧ cw.toNat / 2 ^ 12 % 4096 ≠ 0) ∨
      ((cw.toNat / 2 ^ 28 = 1 ∨ cw.toNat / 2 ^ 28 = 2) ∧ (cw.toNat % 4096 = 0 ∨ 65 ≤ cw.toNat % 4096)) ∨
      (cw.toNat / 2 ^ 28 = 4 ∧ (cw.toNat / 2 ^ 12 % 4096 ≠ 0 ∨ cw.toNat % 4096 ≠ 0)) ∨
      (cw.toNat / 2 ^ 28 = 3 ∧ fmSize < cw.toNat / 2 ^ 12 % 4096 + cw.toNat % 4096) ∨
      (cw.toNat / 2 ^ 28 = 5 ∧ fmSize < cw.toNat / 2 ^ 12 % 4096 + cw.toNat % 4096 + 3) := by
  rw [instr?_eq_none_iff, exists_decode_rdu_iff, exists_decode_rdi_iff, exists_decode_bind_iff, Ne, decode_pos_iff,
    exists_decode_chk_iff]
  omega

theorem runCommand_of_illegal {s : State} {cw : CmdWord} (h : (decode s.cfg.fmSize cw).instr? = none) :
    runCommand cw s = .next (s.respond .illegal) := by
  rcases runCommand_cases cw s with ⟨i, hdec, _⟩ | ⟨_, _, hrun⟩
  · rw [hdec] at h
    cases h
  · exact hrun

/-- Settles O4: the seven cases are what the five commands leave over. -/
theorem illegalWordsAreTheSevenCases : Obligations.IllegalWordsAreTheSevenCases := fun _ _ =>
  ⟨decode_instr?_eq_none_iff, runCommand_of_illegal⟩

/-- A mask that keeps the bits from `k` on compares `cw / 2 ^ k` with the upper part `v` of the match value. -/
theorem and_mask_eq_iff {cw mask m : CmdWord} {v : Nat} (k : Nat) (hmask : mask = BitVec.allOnes 32 <<< k)
    (hm : m.toNat = v * 2 ^ k) : cw &&& mask = m ↔ cw.toNat / 2 ^ k = v := by
  have hlt : cw.toNat / 2 ^ k * 2 ^ k < 2 ^ 32 := Nat.lt_of_le_of_lt (Nat.div_mul_le_self _ _) cw.isLt
  rw [hmask, ← BitVec.shiftLeft_ushiftRight, ← BitVec.toNat_inj, BitVec.toNat_shiftLeft, BitVec.toNat_ushiftRight,
    Nat.shiftRight_eq_div_pow, Nat.shiftLeft_eq, Nat.mod_eq_of_lt hlt, hm, Nat.mul_left_inj (Nat.two_pow_pos k).ne']

/-- Both masks cover the field `OP`, and the match values differ there. -/
abbrev OpcodesDiffer (p q : CmdWord × CmdWord) : Prop :=
  p.2 &&& 0xF0000000#32 = 0xF0000000#32 ∧ q.2 &&& 0xF0000000#32 = 0xF0000000#32 ∧
    p.1 &&& 0xF0000000#32 ≠ q.1 &&& 0xF0000000#32

theorem OpcodesDiffer.disjoint {p q : CmdWord × CmdWord} (h : OpcodesDiffer p q) (cw : CmdWord) :
    ¬(cw &&& p.2 = p.1 ∧ cw &&& q.2 = q.1) := by
  obtain ⟨hp, hq, hne⟩ := h
  rintro ⟨hmp, hmq⟩
  apply hne
  rw [← hmp, ← hmq, BitVec.and_assoc, BitVec.and_assoc, hp, hq]

/-- Settles O5: each pattern is a range of words, and the opcode keeps the patterns apart. -/
theorem opcodePatterns : Obligations.OpcodePatterns := by
  constructor
  · intro fmSize cw
    rw [exists_decode_rdu_iff, exists_decode_rdi_iff, exists_decode_bind_iff, decode_pos_iff, exists_decode_chk_iff,
      decode_instr?_eq_none_iff]
    refine ⟨and_congr_left' (and_mask_eq_iff 12 rfl rfl).symm, and_congr_left' (and_mask_eq_iff 12 rfl rfl).symm,
      and_congr_left' (and_mask_eq_iff 24 rfl rfl).symm, ?pos, and_congr_left' (and_mask_eq_iff 24 rfl rfl).symm,
      fun hop => .inr (.inl hop)⟩
    case pos =>
      rw [← Nat.div_one cw.toNat]
      exact (and_mask_eq_iff 0 rfl rfl).symm
  · have hdiffer : List.Pairwise OpcodesDiffer
        [(0x10000000#32, 0xFFFFF000#32), (0x20000000#32, 0xFFFFF000#32), (0x30000000#32, 0xFF000000#32),
          (0x40000000#32, 0xFFFFFFFF#32), (0x50000000#32, 0xFF000000#32)] := by decide
    exact hdiffer.imp OpcodesDiffer.disjoint

end Sys2Proof.Machine
end

section
/-! PROOFS. A field as a word of its own width: `RDU` zero-extends it and `RDI` sign-extends it to the value lines (R55, R58). -/

namespace Sys2Proof.Machine

/-- The `w` stream bits from `p` on as a word of `w` bits. -/
def State.field (s : State) (p w : Nat) : BitVec w := BitVec.ofNat w (s.readBits p w)

theorem State.field_toNat (s : State) (p w : Nat) : (s.field p w).toNat = s.readBits p w :=
  Nat.mod_eq_of_lt (s.readBits_lt p w)

theorem State.streamBit_le_one (s : State) (k : Nat) : s.streamBit k ≤ 1 :=
  s.bufBit_eq_streamBit k ▸ s.bufBit_le_one k

/-- The bit read first is the most significant one (R9, R31). -/
theorem State.readBits_top_bit (s : State) (p w : Nat) : s.readBits p (w + 1) / 2 ^ w = s.streamBit p := by
  have hone : s.readBits p 1 = s.streamBit p := by simp [State.readBits, State.bufBit_eq_streamBit]
  rw [Nat.add_comm w 1, State.readBits_add, hone, Nat.add_comm, Nat.add_mul_div_right _ _ (Nat.two_pow_pos w),
    Nat.div_eq_of_lt (s.readBits_lt _ w), Nat.zero_add]

theorem State.field_msb (s : State) (p : Nat) {w : Nat} (hw : 1 ≤ w) : (s.field p w).msb = decide (s.streamBit p = 1) := by
  obtain ⟨n, rfl⟩ := Nat.exists_eq_add_of_le' hw
  rw [BitVec.msb_eq_getLsbD_last, BitVec.getLsbD, State.field_toNat, Nat.add_sub_cancel,
    Nat.testBit_eq_decide_div_mod_eq, State.readBits_top_bit, Nat.mod_eq_of_lt (Nat.lt_succ_of_le (s.streamBit_le_one p))]

/-- As a signed number the field is its sum, less `2^w` when the first bit is 1 (R58). -/
theorem State.field_toInt (s : State) (p : Nat) {w : Nat} (hw : 1 ≤ w) :
    (s.field p w).toInt = (s.fieldSum p w : Int) - 2 ^ w * (s.streamBit p : Int) := by
  rw [BitVec.toInt_eq_msb_cond, s.field_msb p hw, State.field_toNat, State.readBits_eq_fieldSum]
  rcases Nat.le_one_iff_eq_zero_or_eq_one.mp (s.streamBit_le_one p) with h | h <;> simp [h]

theorem zext64_readBits (s : State) (p : Nat) {w : Nat} (hw : w ≤ 64) :
    zext64 (s.readBits p w) = (s.field p w).setWidth 64 := by
  apply BitVec.eq_of_toNat_eq
  rw [zext64_readBits_toNat s p hw, BitVec.toNat_setWidth_of_le hw, State.field_toNat]

/-- The spec's arithmetic form of the sign extension (R10) copies the field's top bit. -/
theorem sext64_readBits (s : State) (p : Nat) {w : Nat} (hw : w ≤ 64) :
    sext64 w (s.readBits p w) = (s.field p w).signExtend 64 := by
  have htop : (s.readBits p w).testBit (w - 1) = (s.field p w).msb := by
    rw [BitVec.msb_eq_getLsbD_last, BitVec.getLsbD, State.field_toNat]
  have hpow : 2 ^ w ≤ 2 ^ 64 := Nat.pow_le_pow_right (by decide) hw
  have hlt := s.readBits_lt p w
  apply BitVec.eq_of_toNat_eq
  rw [sext64, htop, BitVec.toNat_ofNat, BitVec.toNat_signExtend, BitVec.toNat_setWidth_of_le hw, State.field_toNat]
  cases (s.field p w).msb
  · exact Nat.mod_eq_of_lt (Nat.lt_of_lt_of_le hlt hpow)
  · rw [if_pos rfl, if_pos rfl, Nat.add_sub_assoc hpow]
    exact Nat.mod_eq_of_lt (by omega)

/-! ## The two extensions of a word -/

/-- The two extensions differ in the bits above the word alone, and not at all when its top bit is 0 or it fills the lines. -/
theorem setWidth_eq_signExtend {w : Nat} (x : BitVec w) (h : x.msb = false ∨ w = 64) :
    x.setWidth 64 = x.signExtend 64 := by
  rcases h with hmsb | rfl
  · exact (BitVec.signExtend_eq_setWidth_of_msb_false hmsb).symm
  · exact (BitVec.signExtend_eq_setWidth_of_le x (Nat.le_refl 64)).symm

theorem getLsbD_setWidth_eq_signExtend {w k : Nat} (x : BitVec w) (hk : k < w) :
    (x.setWidth 64).getLsbD k = (x.signExtend 64).getLsbD k := by
  rw [BitVec.getLsbD_setWidth, BitVec.getLsbD_signExtend, if_pos hk]

theorem getLsbD_signExtend_above {w k : Nat} (x : BitVec w) (hw : 1 ≤ w) (hk : w ≤ k) (hk' : k < 64) :
    (x.signExtend 64).getLsbD k = (x.signExtend 64).getLsbD (w - 1) := by
  have htop : w - 1 < 64 := by omega
  rw [BitVec.getLsbD_signExtend, BitVec.getLsbD_signExtend, if_neg (Nat.not_lt.mpr hk), if_pos (Nat.sub_one_lt_of_lt hw),
    BitVec.msb_eq_getLsbD_last, decide_eq_true hk', decide_eq_true htop]

/-- The signed range of `w` bits survives the extension (R62 b). -/
theorem toInt_signExtend_range {w : Nat} (x : BitVec w) (hw : w ≤ 64) :
    -(2 ^ (w - 1) : Int) ≤ (x.signExtend 64).toInt ∧ (x.signExtend 64).toInt ≤ 2 ^ (w - 1) - 1 := by
  rw [BitVec.toInt_signExtend_of_le hw]
  exact ⟨BitVec.le_toInt x, BitVec.toInt_le⟩

/-- The unsigned range of `w` bits survives the extension (R62 a). -/
theorem toNat_setWidth_range {w : Nat} (x : BitVec w) (hw : w ≤ 64) : (x.setWidth 64).toNat ≤ 2 ^ w - 1 := by
  rw [BitVec.toNat_setWidth_of_le hw]
  exact Nat.le_sub_one_of_lt x.isLt

end Sys2Proof.Machine
end

section
/-! PROOFS. The read commands (R55 to R62): what they answer when the field fits the window, when it does not, and when the
word is illegal. -/

namespace Sys2Proof.Machine

open Sys2Proof.Laws.EncodedFields (opcodeOf operandA operandB)

/-! ## The words -/

/-- A command's word as a number (R44, R45). -/
theorem encode_toNat (i : Instr) :
    (encode i).toNat = (opcodeOf i).toNat * 2 ^ 28 + (operandA i).toNat * 4096 + (operandB i).toNat := by
  obtain ⟨hop, hz, ha, hb⟩ := hasFieldsOf_iff.mp (encode_hasFieldsOf i)
  omega

/-- Cases 1, 3 and 4 of R49: the illegal words with the opcode of a read. -/
theorem answersIllegal_of_read_word {cw : CmdWord} {s : State} (hop : cw.toNat / 2 ^ 28 = 1 ∨ cw.toNat / 2 ^ 28 = 2)
    (hbad : cw.toNat / 2 ^ 24 % 16 ≠ 0 ∨ cw.toNat / 2 ^ 12 % 4096 ≠ 0 ∨ cw.toNat % 4096 = 0 ∨ 65 ≤ cw.toNat % 4096) :
    answersIllegal cw s := by
  refine runCommand_of_illegal (decode_instr?_eq_none_iff.mpr ?_)
  rcases hbad with hz | ha | hwidth
  · exact .inl hz
  · exact .inr (.inr (.inl ⟨hop, ha⟩))
  · exact .inr (.inr (.inr (.inl ⟨hop, hwidth⟩)))

/-! ## A read that fits, and one that does not -/

section Fits
variable {s : State} {w : Operand} (hw : 1 ≤ w.toNat) (hw' : w.toNat ≤ 64) (hin : s.windowInside)
  (hfit : s.bitpos.toNat + w.toNat ≤ 8 * s.len.toNat)
include hw hw' hin hfit

theorem exec_rdu_field :
    exec (.rdu w) s =
      .next ((s.advance w.toNat).respond (.ok ((s.field s.bitpos.toNat w.toNat).setWidth 64))) := by
  rw [exec_rdu_fits hw hw' hin hfit, zext64_readBits s _ hw']

theorem exec_rdi_field :
    exec (.rdi w) s =
      .next ((s.advance w.toNat).respond (.ok ((s.field s.bitpos.toNat w.toNat).signExtend 64))) := by
  rw [exec_rdi, if_pos ((legalWidth_iff w).mpr ⟨hw, hw'⟩), readField_fits _ hw hin hfit, sext64_readBits s _ hw']

theorem exec_read_answers_ok {i : Instr} (hi : i = .rdu w ∨ i = .rdi w) :
    ∃ v, exec i s = .next ((s.advance w.toNat).respond (.ok v)) := by
  rcases hi with rfl | rfl
  · exact ⟨_, exec_rdu_field hw hw' hin hfit⟩
  · exact ⟨_, exec_rdi_field hw hw' hin hfit⟩

end Fits

theorem exec_read_answers_bounds {i : Instr} {w : Operand} (hi : i = .rdu w ∨ i = .rdi w) {s : State} (hw : 1 ≤ w.toNat)
    (hw' : w.toNat ≤ 64) (h : 8 * s.len.toNat - s.bitpos.toNat < w.toNat) : exec i s = .next (s.respond .bounds) := by
  obtain ⟨hrdu, hrdi⟩ := exec_reads_bounds ((legalWidth_iff w).mpr ⟨hw, hw'⟩) h
  rcases hi with rfl | rfl
  · exact hrdu
  · exact hrdi

/-- The bits are there but the window leaves FM: the fault, which INV1 rules out (R57; log entry 8). -/
theorem exec_read_faults {i : Instr} {w : Operand} (hi : i = .rdu w ∨ i = .rdi w) {s : State} (hw : 1 ≤ w.toNat)
    (hw' : w.toNat ≤ 64) (hfit : s.bitpos.toNat + w.toNat ≤ 8 * s.len.toNat)
    (hout : s.cfg.fmSize ≤ s.lastReadAddress w.toNat) :
    exec i s = .fault (.readOutsideFM (s.lastReadAddress w.toNat)) := by
  obtain ⟨extend, hexec⟩ := exec_read hi
  rw [hexec, if_pos ((legalWidth_iff w).mpr ⟨hw, hw'⟩)]
  rcases readField_cases w.toNat extend s with ⟨hrem, _⟩ | ⟨_, _, hfault⟩ | ⟨_, hlast, _⟩
  · omega
  · exact hfault
  · omega

/-- R57: the last bit of a read that passes the bounds check lies in a byte of the window. -/
theorem State.lastReadAddress_in_window {s : State} {w : Nat} (hw : 1 ≤ w) (hfit : s.bitpos.toNat + w ≤ 8 * s.len.toNat) :
    s.lastReadAddress w < s.base.toNat + s.len.toNat := by
  unfold State.lastReadAddress
  omega

/-! ## The obligations -/

/-- Settles O14: the value is the field, zero-extended. -/
theorem rduCompletes : Obligations.RduCompletes := by
  intro s w
  refine ⟨by simpa [opcodeOf, operandA, operandB] using encode_toNat (.rdu w), fun hw hw' hin hfit => ?ok,
    fun hw hw' hshort => ?bounds, fun cw hop => answersIllegal_of_read_word (.inl hop)⟩
  case ok =>
    refine ⟨_, _, s.advance_bitpos_toNat _ hfit, ?_, toNat_setWidth_range _ hw', exec_rdu_field hw hw' hin hfit⟩
    rw [BitVec.toNat_setWidth_of_le hw', State.field_toNat, State.readBits_eq_fieldSum]
  case bounds => exact exec_read_answers_bounds (.inl rfl) hw hw' (by omega)

/-- Settles O15: the value is the field, sign-extended. -/
theorem rdiCompletes : Obligations.RdiCompletes := by
  intro s w
  refine ⟨by simpa [opcodeOf, operandA, operandB] using encode_toNat (.rdi w), fun hw hw' hin hfit => ?ok,
    fun hw hw' hshort => ?bounds, fun cw hop => answersIllegal_of_read_word (.inr hop)⟩
  case ok =>
    obtain ⟨hmin, hmax⟩ := toInt_signExtend_range (s.field s.bitpos.toNat w.toNat) hw'
    refine ⟨_, _, s.advance_bitpos_toNat _ hfit, ?_, fun k => getLsbD_signExtend_above _ hw, hmin, hmax,
      exec_rdi_field hw hw' hin hfit⟩
    rw [BitVec.toInt_signExtend_of_le hw', s.field_toInt _ hw]
  case bounds => exact exec_read_answers_bounds (.inr rfl) hw hw' (by omega)

/-- Settles O17: the two values are the extensions of one field. -/
theorem signedAndUnsignedReadsAgree : Obligations.SignedAndUnsignedReadsAgree := by
  intro s w hw hw' hin hfit
  refine ⟨_, _, _, _, exec_rdu_field hw hw' hin hfit, exec_rdi_field hw hw' hin hfit, rfl, rfl, rfl,
    fun k => getLsbD_setWidth_eq_signExtend _, fun h => setWidth_eq_signExtend _ (h.imp_left fun hbit => ?_)⟩
  rw [s.field_msb _ hw, hbit]
  rfl

/-- Settles O18: `BOUNDS` leaves `LEN` and `BITPOS`, on which the next bounds check depends. -/
theorem boundsFailureLeavesTheCursor : Obligations.BoundsFailureLeavesTheCursor := by
  intro s w i hinv hw hw' hi hshort
  obtain ⟨_, hin, _⟩ := hinv
  refine ⟨_, exec_read_answers_bounds hi hw hw' hshort, rfl, exec_read_answers_bounds hi hw hw' hshort, ?_⟩
  intro w' j hpos hrem hmax hj
  have hfit : (s.respond .bounds).bitpos.toNat + w'.toNat ≤ 8 * (s.respond .bounds).len.toNat := by
    rw [State.respond_bitpos, State.respond_len]
    omega
  obtain ⟨v, hexec⟩ := exec_read_answers_ok (s := s.respond .bounds) hpos hmax hin hfit hj
  exact ⟨_, v, hexec, rfl, State.advance_bitpos_toNat _ _ hfit⟩

/-- Settles O19: whether the read fits is a matter of `w`, `LEN` and `BITPOS`, which another memory leaves as they are. -/
theorem boundsDependsOnWidthAndCursorOnly : Obligations.BoundsDependsOnWidthAndCursorOnly := by
  intro s w i hinv hw hw' hi m
  obtain ⟨_, hin, hcur, _⟩ := hinv
  by_cases hshort : 8 * s.len.toNat - s.bitpos.toNat < w.toNat
  · exact ⟨_, _, exec_read_answers_bounds hi hw hw' hshort, rfl, .inl rfl, iff_of_true rfl hshort⟩
  · have hfit : s.bitpos.toNat + w.toNat ≤ 8 * s.len.toNat := by omega
    obtain ⟨v, hexec⟩ := exec_read_answers_ok (s := { s with fm := m }) hw hw' hin hfit hi
    exact ⟨_, _, hexec, rfl, .inr ⟨v, rfl⟩, iff_of_false nofun hshort⟩

/-- Settles O20. -/
theorem readsStayInsideTheWindow : Obligations.ReadsStayInsideTheWindow := by
  intro s w hw hw' hfit
  have hlast := State.lastReadAddress_in_window hw hfit
  exact ⟨Nat.le_sub_one_of_lt hlast, fun hin => Nat.le_sub_one_of_lt (Nat.lt_of_lt_of_le hlast hin), fun hout =>
    ⟨exec_read_faults (.inl rfl) hw hw' hfit hout, exec_read_faults (.inr rfl) hw hw' hfit hout⟩⟩

/-- Settles O21: the widths 1 and 14 are cases of the signed range, and `8*LEN` is at most 32760. -/
theorem readResultRanges : Obligations.ReadResultRanges := by
  intro s w hw hw' hin hfit
  have hpos := s.advance_bitpos_toNat _ hfit
  have hlen := s.len.isLt
  obtain ⟨hmin, hmax⟩ := toInt_signExtend_range (s.field s.bitpos.toNat w.toNat) hw'
  refine ⟨_, _, _, _, exec_rdu_field hw hw' hin hfit, rfl, exec_rdi_field hw hw' hin hfit, rfl,
    toNat_setWidth_range _ hw', hmin, hmax, fun h64 => (setWidth_eq_signExtend _ (.inr h64)).symm, fun h1 => ?one,
    fun h14 => ?fourteen, hpos, hpos.trans_le (by omega)⟩
  case one =>
    have hpow : (2 : Int) ^ (w.toNat - 1) = 1 := by rw [h1]; rfl
    rw [hpow] at hmin hmax
    omega
  case fourteen =>
    have hpow : (2 : Int) ^ (w.toNat - 1) = 8192 := by rw [h14]; rfl
    rw [hpow] at hmin hmax
    omega

end Sys2Proof.Machine
end

section
/-! PROOFS. The cursor control commands (R65 to R69): `BIND`, `POS`, and what `POS` counts after a sequence of reads. -/

namespace Sys2Proof.Machine

open Sys2Proof.Laws.EncodedFields (opcodeOf operandA operandB)

/-! ## The words -/

/-- Cases 1 and 6 of R49: the illegal words with the opcode of `BIND`. -/
theorem answersIllegal_of_bind_word {cw : CmdWord} {s : State} (hop : cw.toNat / 2 ^ 28 = 3)
    (hbad : cw.toNat / 2 ^ 24 % 16 ≠ 0 ∨ s.cfg.fmSize < cw.toNat / 2 ^ 12 % 4096 + cw.toNat % 4096) :
    answersIllegal cw s := by
  refine runCommand_of_illegal (decode_instr?_eq_none_iff.mpr ?_)
  rcases hbad with hz | hrange
  · exact .inl hz
  · exact .inr (.inr (.inr (.inr (.inr (.inl ⟨hop, hrange⟩)))))

/-- Cases 1 and 5 of R49: the illegal words with the opcode of `POS`. -/
theorem answersIllegal_of_pos_word {cw : CmdWord} {s : State} (hop : cw.toNat / 2 ^ 28 = 4)
    (hbad : cw.toNat % 2 ^ 28 ≠ 0) : answersIllegal cw s := by
  refine runCommand_of_illegal (decode_instr?_eq_none_iff.mpr ?_)
  have hfield : cw.toNat / 2 ^ 24 % 16 ≠ 0 ∨ cw.toNat / 2 ^ 12 % 4096 ≠ 0 ∨ cw.toNat % 4096 ≠ 0 := by omega
  rcases hfield with hz | hoperand
  · exact .inl hz
  · exact .inr (.inr (.inr (.inr (.inl ⟨hop, hoperand⟩))))

/-- The cursor fits the value lines of the response (R68). -/
theorem State.zext64_bitpos_toNat (s : State) : (zext64 s.bitpos.toNat).toNat = s.bitpos.toNat :=
  zext64_toNat (s.bitpos.isLt.trans (by decide))

/-! ## Bits consumed by a sequence of reads -/

/-- A legal read inside the invariants answers, moves the cursor by the bits its response says it consumed, and keeps both
invariants. -/
theorem exec_legal_read {i : Instr} {w : Operand} (hi : i = .rdu w ∨ i = .rdi w) {s : State} (hw : 1 ≤ w.toNat)
    (hw' : w.toNat ≤ 64) (hin : s.windowInside) (hcur : s.cursorInside) :
    ∃ t r, exec i s = .next t ∧ t.responses = s.responses ++ [r] ∧
      t.bitpos.toNat = s.bitpos.toNat + consumedBits i r ∧ t.windowInside ∧ t.cursorInside := by
  by_cases hfit : s.bitpos.toNat + w.toNat ≤ 8 * s.len.toNat
  · obtain ⟨v, hexec⟩ := exec_read_answers_ok hw hw' hin hfit hi
    have hconsumed : consumedBits i (.ok v) = w.toNat := by rcases hi with rfl | rfl <;> rfl
    have hpos := s.advance_bitpos_toNat _ hfit
    exact ⟨_, .ok v, hexec, rfl, hconsumed ▸ hpos, hin, hpos.trans_le hfit⟩
  · have hconsumed : consumedBits i .bounds = 0 := by rcases hi with rfl | rfl <;> rfl
    exact ⟨_, .bounds, exec_read_answers_bounds hi hw hw' (by omega), rfl, by rw [hconsumed]; rfl, hin, hcur⟩

theorem issueAll_cons_of_exec {i : Instr} {s t : State} (is : List Instr) (h : exec i s = .next t) :
    issueAll (i :: is) s = issueAll is t := by
  rw [issueAll, h]

/-- Legal reads issued one after another each answer once, and the cursor moves by the bits all of them consumed. -/
theorem issueAll_legal_reads (reads : List Instr) {s : State} (hin : s.windowInside) (hcur : s.cursorInside)
    (hreads : ∀ i ∈ reads, ∃ w : Operand, 1 ≤ w.toNat ∧ w.toNat ≤ 64 ∧ (i = .rdu w ∨ i = .rdi w)) :
    ∃ t answers, issueAll reads s = .next t ∧ t.responses = s.responses ++ answers ∧ answers.length = reads.length ∧
      t.bitpos.toNat = s.bitpos.toNat + (List.zipWith consumedBits reads answers).sum := by
  induction reads generalizing s with
  | nil => exact ⟨s, [], rfl, (List.append_nil _).symm, rfl, rfl⟩
  | cons i reads ih =>
    obtain ⟨hhead, htail⟩ := List.forall_mem_cons.mp hreads
    obtain ⟨w, hw, hw', hi⟩ := hhead
    obtain ⟨u, r, hexec, hresp, hpos, huin, hucur⟩ := exec_legal_read hi hw hw' hin hcur
    obtain ⟨t, answers, hissue, hresps, hlen, hsum⟩ := ih huin hucur htail
    refine ⟨t, r :: answers, (issueAll_cons_of_exec reads hexec).trans hissue, ?_, congrArg (· + 1) hlen, ?_⟩
    · rw [hresps, hresp, List.append_assoc, List.singleton_append]
    · rw [hsum, hpos, List.zipWith_cons_cons, List.sum_cons, Nat.add_assoc]

/-! ## The obligations -/

/-- Settles O29: `BIND` leaves both invariants and the cursor at 0, whatever held before, and the reads start there. -/
theorem posCountsTheBitsConsumed : Obligations.PosCountsTheBitsConsumed := by
  intro s base len reads hrange hreads
  have hbind := exec_bind_inside hrange
  obtain ⟨hin, hcur⟩ := CursorBound.inv (t := (s.bindWindow base len).respond (.ok 0)) ⟨rfl, rfl, rfl⟩ hrange
  obtain ⟨t, answers, hissue, hresps, hlen, hsum⟩ := issueAll_legal_reads reads hin hcur hreads
  refine ⟨t, answers, _, (issueAll_cons_of_exec reads hbind).trans hissue, ?_, hlen, exec_pos t, ?_⟩
  · exact hresps.trans (List.append_assoc s.responses [.ok 0] answers)
  · exact t.zext64_bitpos_toNat.trans (hsum.trans (Nat.zero_add _))

/-- Settles O26. -/
theorem bindCompletes : Obligations.BindCompletes := by
  intro s base len
  exact ⟨by simpa [opcodeOf, operandA, operandB] using encode_toNat (.bind base len), exec_bind_inside, fun _ =>
    answersIllegal_of_bind_word⟩

/-- Settles O27: `8*LEN` is at most 32760 because `LEN` has 12 bits. -/
theorem posCompletes : Obligations.PosCompletes := by
  refine ⟨by decide, fun s => ⟨_, s.zext64_bitpos_toNat, exec_pos s, fun hcur => ?_, fun _ =>
    answersIllegal_of_pos_word⟩⟩
  have hlen := s.len.isLt
  rw [s.zext64_bitpos_toNat]
  exact ⟨hcur, hcur.trans (by omega)⟩

end Sys2Proof.Machine
end

section
/-! PROOFS. CRC-24Q is linear over XOR (R77): an inner step is, so a byte taken in is, so a sequence of bytes is. Zero bytes leave
the zero register, and the check values of R76 are its values on short sequences. -/

namespace Sys2Proof.Machine

/-- Doubling is linear, so the carries add up, and with them the polynomials. -/
theorem crcShift_xor (x y : BitVec 25) : crcShift (x ^^^ y) = crcShift x ^^^ crcShift y := by
  simp only [crcShift, BitVec.shiftLeft_xor_distrib, BitVec.getLsbD_xor]
  generalize x <<< 1 = dx
  generalize y <<< 1 = dy
  cases dx.getLsbD 24 <;> cases dy.getLsbD 24
  · rfl
  · exact BitVec.xor_assoc dx dy crcPolynomial
  · change dx ^^^ dy ^^^ crcPolynomial = dx ^^^ crcPolynomial ^^^ dy
    ac_rfl
  · change dx ^^^ dy = dx ^^^ crcPolynomial ^^^ (dy ^^^ crcPolynomial)
    rw [BitVec.xor_comm dy, BitVec.xor_assoc, ← BitVec.xor_assoc crcPolynomial, BitVec.xor_self, BitVec.zero_xor]

theorem crcShifts_xor (n : Nat) (x y : BitVec 25) : crcShifts n (x ^^^ y) = crcShifts n x ^^^ crcShifts n y := by
  induction n generalizing x y with
  | zero => rfl
  | succ n ih => simp only [crcShifts, crcShift_xor, ih]

theorem crcByte_xor (x y : BitVec 25) (b c : Byte) : crcByte (x ^^^ y) (b ^^^ c) = crcByte x b ^^^ crcByte y c := by
  have hmix (b' c' : BitVec 25) : x ^^^ y ^^^ (b' ^^^ c') = x ^^^ b' ^^^ (y ^^^ c') := by ac_rfl
  rw [crcByte, BitVec.setWidth_xor, BitVec.shiftLeft_xor_distrib, hmix]
  exact crcShifts_xor 8 _ _

theorem foldl_crcByte_xor (xs ys : List Byte) (hlen : xs.length = ys.length) (x y : BitVec 25) :
    (List.zipWith (· ^^^ ·) xs ys).foldl crcByte (x ^^^ y) = xs.foldl crcByte x ^^^ ys.foldl crcByte y := by
  induction xs generalizing ys x y with
  | nil =>
    obtain rfl := List.eq_nil_of_length_eq_zero hlen.symm
    rfl
  | cons b xs ih =>
    cases ys with
    | nil => cases hlen
    | cons c ys =>
      simp only [List.zipWith_cons_cons, List.foldl_cons, crcByte_xor]
      exact ih ys (Nat.succ.inj hlen) _ _

theorem crcRegister_xor {xs ys : List Byte} (hlen : xs.length = ys.length) :
    crcRegister (List.zipWith (· ^^^ ·) xs ys) = crcRegister xs ^^^ crcRegister ys :=
  foldl_crcByte_xor xs ys hlen 0 0

/-- The register starts at zero, and a zero byte leaves it there. -/
theorem crcRegister_leadingZeros (n : Nat) (bytes : List Byte) :
    crcRegister (List.replicate n 0 ++ bytes) = crcRegister bytes := by
  have hzero : crcByte 0 0 = 0 := by decide
  induction n with
  | zero => rfl
  | succ n ih =>
    calc crcRegister (List.replicate (n + 1) 0 ++ bytes)
      _ = (List.replicate n 0 ++ bytes).foldl crcByte (crcByte 0 0) := rfl
      _ = crcRegister (List.replicate n 0 ++ bytes) := by rw [hzero, crcRegister]
      _ = crcRegister bytes := ih

theorem crc24q_leadingZeros (n : Nat) (bytes : List Byte) : crc24q (List.replicate n 0 ++ bytes) = crc24q bytes := by
  simp only [crc24q, crcRegister_leadingZeros]

/-- Settles O34: linear step by step; a single inverted bit shows because the inner step can be undone; zero bytes are leading
zeros of the empty sequence. -/
theorem crc24qSeesEverySingleBit : Obligations.Crc24qSeesEverySingleBit := by
  refine ⟨fun _ _ => crcRegister_xor, fun bytes j k hj hk => ?_, fun n => ?_, crc24q_leadingZeros⟩
  · rw [← flipBit_eq_set bytes j k hj]
    exact crc24q_seesEverySingleBit bytes j k hj hk
  · rw [← List.append_nil (List.replicate n 0), crc24q_leadingZeros]
    rfl

/-- Settles O33, by evaluation in the kernel. -/
theorem crc24qCheckValues : Obligations.Crc24qCheckValues := by
  unfold Obligations.Crc24qCheckValues
  decide +kernel

end Sys2Proof.Machine
end

section
/-! PROOFS. The command `CHK` (R71 to R78): its words, its verdict by the bytes it covers and the three after them, and what the
verdict depends on. -/

namespace Sys2Proof.Machine

open Sys2Proof.Laws.EncodedFields (opcodeOf operandA operandB)

/-- Cases 1 and 7 of R49: the illegal words with the opcode of `CHK`. -/
theorem answersIllegal_of_chk_word {cw : CmdWord} {s : State} (hop : cw.toNat / 2 ^ 28 = 5)
    (hbad : cw.toNat / 2 ^ 24 % 16 ≠ 0 ∨ s.cfg.fmSize < cw.toNat / 2 ^ 12 % 4096 + cw.toNat % 4096 + 3) :
    answersIllegal cw s := by
  refine runCommand_of_illegal (decode_instr?_eq_none_iff.mpr ?_)
  rcases hbad with hz | hrange
  · exact .inl hz
  · exact .inr (.inr (.inr (.inr (.inr (.inr ⟨hop, hrange⟩)))))

/-- A `CHK` inside FM answers its verdict and leaves all else (R71). -/
theorem exec_chk_inside {s : State} {base n : Operand} (hrange : base.toNat + n.toNat + 3 ≤ s.cfg.fmSize) :
    exec (.chk base n) s = .next (s.respond (.ok (if s.checksumMatches base.toNat n.toNat then 1 else 0))) := by
  rw [exec_chk, if_pos ((legalCover_iff _ _ _).mpr hrange)]

/-- The comparison of R71 and R74 over the bytes of FM by their addresses. -/
theorem State.checksumMatches_iff_bytes (s : State) (base n : Nat) :
    s.checksumMatches base n = true ↔
      (checksumOf s.cfg.checksum ((List.range n).map fun j => s.fmByte (base + j))).bytes =
        (List.range 3).map fun k => s.fmByte (base + n + k) := by
  rw [State.checksumMatches_iff, State.memRead_eq_map]
  generalize checksumOf s.cfg.checksum _ = c
  cases c
  simp [Checksum.bytes, List.range_succ]

/-- Settles O30. -/
theorem chkCompletes : Obligations.ChkCompletes := by
  intro s base n
  refine ⟨by simpa [opcodeOf, operandA, operandB] using encode_toNat (.chk base n), fun hrange => ?_, fun _ =>
    answersIllegal_of_chk_word⟩
  simp only [exec_chk_inside hrange, State.checksumMatches_iff_bytes, State.respond]

/-- The comparison depends on the checksum function, the covered bytes and the trailer, not on their address (R73). -/
theorem State.checksumMatches_congr {s t : State} {a b n : Nat} (hck : s.cfg.checksum = t.cfg.checksum)
    (hbytes : ∀ j, j < n + 3 → s.fmByte (a + j) = t.fmByte (b + j)) :
    s.checksumMatches a n = t.checksumMatches b n := by
  have hcovered : s.memRead a n = t.memRead b n := State.memRead_congr fun j hj => hbytes j (by omega)
  have h0 : s.fmByte (a + n) = t.fmByte (b + n) := hbytes n (by omega)
  have h1 : s.fmByte (a + n + 1) = t.fmByte (b + n + 1) := hbytes (n + 1) (by omega)
  have h2 : s.fmByte (a + n + 2) = t.fmByte (b + n + 2) := hbytes (n + 2) (by omega)
  simp only [State.checksumMatches, hck, hcovered, h0, h1, h2]

/-- Settles O32: both verdicts are of one comparison. -/
theorem chkIsPositionIndependent : Obligations.ChkIsPositionIndependent := by
  intro s t a b n hck ha hb hbytes
  refine ⟨_, exec_chk_inside ha, ?_⟩
  rw [State.checksumMatches_congr hck hbytes]
  exact exec_chk_inside hb

/-- Two states with the same FM and the same parameters answer a `CHK` alike and change in nothing else, whatever their cursors
and ports hold (R78). -/
theorem exec_chk_of_fm {s t : State} (hfm : t.fm = s.fm) (hcfg : t.cfg = s.cfg) (base n : Operand) :
    ∃ r, exec (.chk base n) s = .next (s.respond r) ∧ exec (.chk base n) t = .next (t.respond r) := by
  rw [exec_chk, exec_chk, State.checksumMatches_of_fm hfm hcfg, hcfg]
  split
  · exact ⟨_, rfl, rfl⟩
  · exact ⟨_, rfl, rfl⟩

/-- Settles O31: a command leaves FM and the parameters, and so does every step that is not an `FM_WR`. -/
theorem chkIsIndependentOfTheCursor : Obligations.ChkIsIndependentOfTheCursor := by
  refine fun s base n => ⟨fun b l p =>
    exec_chk_of_fm (s := s) (t := { s with base := b, len := l, bitpos := p }) rfl rfl base n, fun i t h => ?_, fun t h hnoWrite => ?_⟩
  · obtain ⟨hfm, hcfg, _⟩ := exec_frame h
    exact exec_chk_of_fm hfm hcfg base n
  · rcases step_fm h with hfm | ⟨a, b, rest, hin, _⟩
    · exact exec_chk_of_fm hfm (step_cfg h) base n
    · exact absurd hin (hnoWrite a b rest)

end Sys2Proof.Machine
end

section
/-! PROOFS. The requester's rules (R53, R87): what one issued read does to a decode when its bits are there, when they are not,
and when the decode is known to end in a record. -/

namespace Sys2Proof.Machine

/-! ## A cursor further on in the same window -/

/-- The cursor has moved on by `n` bits; window, FM and parameters are the same. -/
structure State.AdvancedBy (s t : State) (n : Nat) : Prop where
  base : t.base = s.base
  len : t.len = s.len
  fm : t.fm = s.fm
  cfg : t.cfg = s.cfg
  bitpos : t.bitpos.toNat = s.bitpos.toNat + n

theorem State.AdvancedBy.refl (s : State) : s.AdvancedBy s 0 := ⟨rfl, rfl, rfl, rfl, rfl⟩

theorem State.AdvancedBy.trans {s t u : State} {m n : Nat} (h : s.AdvancedBy t m) (h' : t.AdvancedBy u n) :
    s.AdvancedBy u (m + n) :=
  ⟨h'.base.trans h.base, h'.len.trans h.len, h'.fm.trans h.fm, h'.cfg.trans h.cfg, by
    rw [h'.bitpos, h.bitpos, Nat.add_assoc]⟩

theorem State.AdvancedBy.windowInside {s t : State} {n : Nat} (h : s.AdvancedBy t n) (hin : s.windowInside) :
    t.windowInside := by
  rwa [State.windowInside, h.base, h.len, h.cfg]

/-- The fields of the window are the same from every cursor in it. -/
theorem State.AdvancedBy.readBits {s t : State} {n : Nat} (h : s.AdvancedBy t n) (p w : Nat) :
    t.readBits p w = s.readBits p w :=
  State.readBits_congr h.base fun _ _ _ => State.fmByte_of_fm h.fm _

theorem State.AdvancedBy.fits {s t : State} {m n : Nat} (h : s.AdvancedBy t m)
    (hfit : s.bitpos.toNat + (m + n) ≤ 8 * s.len.toNat) : t.bitpos.toNat + n ≤ 8 * t.len.toNat := by
  rw [h.bitpos, h.len, Nat.add_assoc]
  exact hfit

/-- An `OK` of a read that fits advances the cursor by its width (R55). -/
theorem State.advancedBy_advance {s : State} {w : Nat} (r : Response) (hfit : s.bitpos.toNat + w ≤ 8 * s.len.toNat) :
    s.AdvancedBy ((s.advance w).respond r) w :=
  ⟨rfl, rfl, rfl, rfl, s.advance_bitpos_toNat w hfit⟩

/-! ## The commands that read -/

/-- The command is a read of `w` bits that extends its field by `extend` (R55, R58). -/
def IsRead (i : Instr) (w : Nat) (extend : Nat → Value) : Prop :=
  ∀ s, exec i s = if 1 ≤ w ∧ w ≤ 64 then readField w extend s else .next (s.respond .illegal)

theorem isRead_rdu (w : Operand) (n : Nat) (h : w.toNat = n) : IsRead (.rdu w) n zext64 := fun s => by
  subst h
  simp only [exec_rdu, legalWidth_iff]

theorem isRead_rdi (w : Operand) (n : Nat) (h : w.toNat = n) : IsRead (.rdi w) n (sext64 n) := fun s => by
  subst h
  simp only [exec_rdi, legalWidth_iff]

/-- The extension a field spec asks for (R83). -/
def FieldSpec.extend (f : FieldSpec) : Nat → Value :=
  if f.signed then sext64 f.widthBits.toNat else zext64

theorem FieldSpec.isRead_command (f : FieldSpec) : IsRead f.command f.widthBits.toNat f.extend := by
  have hwidth : (f.widthBits.setWidth 12).toNat = f.widthBits.toNat := BitVec.toNat_setWidth_of_le (by decide)
  unfold FieldSpec.command FieldSpec.extend
  split
  · exact isRead_rdi _ _ hwidth
  · exact isRead_rdu _ _ hwidth

/-! ## One issued read -/

section Issue
variable {α : Type} {field : String} {i : Instr} {w : Nat} {extend : Nat → Value}
  {k : Value → Requester (DecodeResult α)} {s : State}

/-- A read that fits hands its field to the rest of the decode. -/
theorem run_issueField_fits (hread : IsRead i w extend) (hw : 1 ≤ w ∧ w ≤ 64) (hin : s.windowInside)
    (hfit : s.bitpos.toNat + w ≤ 8 * s.len.toNat) :
    ∃ t, s.AdvancedBy t w ∧
      (issueField field i k).run s = (k (extend (s.readBits s.bitpos.toNat w))).run t := by
  have hexec := (hread s).trans ((if_pos hw).trans (readField_fits extend hw.1 hin hfit))
  exact ⟨_, State.advancedBy_advance _ hfit, run_issueField_ok hexec⟩

/-- A read that does not fit ends the decode under its field's name, the cursor where it was (R60, R87). -/
theorem run_issueField_short (hread : IsRead i w extend) (hw : 1 ≤ w ∧ w ≤ 64)
    (hshort : 8 * s.len.toNat - s.bitpos.toNat < w) :
    (issueField field i k).run s = .next (s.respond .bounds, .fieldDecodeError field) := by
  have hexec := (hread s).trans ((if_pos hw).trans (readField_bounds extend hshort))
  simp only [issueField, Requester.run, hexec, State.respond_lastResponse]

/-- A decode that ends in a record went on after its read, which therefore fitted. -/
theorem run_issueField_record {t : State} {r : α} (hread : IsRead i w extend)
    (h : (issueField field i k).run s = .next (t, .record r)) :
    ∃ u, s.AdvancedBy u w ∧ (k (extend (s.readBits s.bitpos.toNat w))).run u = .next (t, .record r) := by
  have hexec := hread s
  split at hexec
  case isTrue hw =>
    rcases readField_cases w extend s with ⟨hshort, _⟩ | ⟨_, _, hfault⟩ | ⟨hrem, _, hok⟩
    · rw [run_issueField_short hread hw hshort] at h
      cases h
    · simp only [issueField, Requester.run, hexec, hfault] at h
      cases h
    · rw [run_issueField_ok (hexec.trans hok)] at h
      exact ⟨_, State.advancedBy_advance _ (by omega), h⟩
  case isFalse =>
    simp only [issueField, Requester.run, hexec, State.respond_lastResponse] at h
    cases h

end Issue

/-! ## The same read over and over -/

/-- `n` reads of one width that fit deliver the fields of the stream one after the other. -/
theorem run_issueRepeat_fits {α : Type} {field : String} {i : Instr} {w : Nat} {extend : Nat → Value}
    (hread : IsRead i w extend) (hw : 1 ≤ w ∧ w ≤ 64) (n : Nat) {k : List Value → Requester (DecodeResult α)} {s : State}
    (hin : s.windowInside) (hfit : s.bitpos.toNat + w * n ≤ 8 * s.len.toNat) :
    ∃ t, s.AdvancedBy t (w * n) ∧ (issueRepeat field i n k).run s =
      (k ((List.range n).map fun j => extend (s.readBits (s.bitpos.toNat + w * j) w))).run t := by
  induction n generalizing k s with
  | zero => exact ⟨s, .refl s, rfl⟩
  | succ n ih =>
    rw [Nat.mul_succ, Nat.add_comm] at hfit ⊢
    obtain ⟨u, hu, hfirst⟩ := run_issueField_fits (field := field) hread hw hin (by omega)
    obtain ⟨t, ht, hrest⟩ := ih (hu.windowInside hin) (hu.fits (by omega))
    refine ⟨t, hu.trans ht, hfirst.trans (hrest.trans ?_)⟩
    simp only [List.range_succ_eq_map, List.map_cons, List.map_map, Function.comp_def, hu.readBits, hu.bitpos,
      Nat.mul_zero, Nat.add_zero, Nat.mul_succ, Nat.add_assoc, Nat.add_comm w]

theorem run_issueRepeat_record {α : Type} {field : String} {i : Instr} {w : Nat} {extend : Nat → Value}
    (hread : IsRead i w extend) (n : Nat) {k : List Value → Requester (DecodeResult α)} {s t : State} {r : α}
    (h : (issueRepeat field i n k).run s = .next (t, .record r)) :
    ∃ u vs, s.AdvancedBy u (w * n) ∧ vs.length = n ∧ (k vs).run u = .next (t, .record r) := by
  induction n generalizing k s with
  | zero => exact ⟨s, [], .refl s, rfl, h⟩
  | succ n ih =>
    rw [Nat.mul_succ, Nat.add_comm]
    obtain ⟨u₁, hu₁, h⟩ := run_issueField_record hread h
    obtain ⟨u₂, vs, hu₂, hlen, h⟩ := ih h
    exact ⟨u₂, _ :: vs, hu₁.trans hu₂, congrArg (· + 1) hlen, h⟩

end Sys2Proof.Machine
end

section
/-! PROOFS. `RDBYTES` (R80) and `SKIP` (R81). -/

namespace Sys2Proof.Machine

theorem widthOperand_toNat {w : Nat} (h : w ≤ 64) : (widthOperand w).toNat = w := by
  rw [widthOperand, BitVec.toNat_ofNat]
  omega

/-! ## The bytes of the stream -/

/-- The first `w` bits of a longer field are its quotient (R31). -/
theorem State.readBits_div (s : State) (p w c : Nat) : s.readBits p (w + c) / 2 ^ c = s.readBits p w := by
  rw [State.readBits_add, Nat.add_comm, Nat.add_mul_div_right _ _ (Nat.two_pow_pos c),
    Nat.div_eq_of_lt (s.readBits_lt _ c), Nat.zero_add]

/-- The last `w` bits of a longer field are its remainder (R31). -/
theorem State.readBits_mod (s : State) (p a w : Nat) : s.readBits p (a + w) % 2 ^ w = s.readBits (p + a) w := by
  rw [State.readBits_add, Nat.mul_add_mod_self_right, Nat.mod_eq_of_lt (s.readBits_lt _ w)]

/-- Byte `j` of the string one read returns is the field of 8 bits that starts `8j` bits on (R80). -/
theorem State.stringByte_readBits (s : State) (p : Nat) {n j : Nat} (hn : n ≤ 8) (hj : j < n) :
    stringByte n j (zext64 (s.readBits p (8 * n))) = BitVec.ofNat 8 (s.readBits (p + 8 * j) 8) := by
  apply BitVec.eq_of_toNat_eq
  rw [stringByte, BitVec.extractLsb'_toNat, zext64_readBits_toNat s p (by omega), Nat.shiftRight_eq_div_pow,
    show 8 * n = 8 * j + 8 + 8 * (n - 1 - j) by omega, State.readBits_div, State.readBits_mod, BitVec.toNat_ofNat,
    Nat.mod_eq_of_lt (s.readBits_lt _ 8)]

/-- The low byte of an 8-bit read is the field read. -/
theorem setWidth_zext64 (v : Nat) : (zext64 v).setWidth 8 = BitVec.ofNat 8 v :=
  BitVec.setWidth_ofNat_of_le (by decide) v

/-- Settles O47: up to 8 bytes are cut out of one field, more are read field by field. -/
theorem rdbytesDeliversTheStream : Obligations.RdbytesDeliversTheStream := by
  intro s n hinv hn hfit
  obtain ⟨_, hin, _⟩ := hinv
  simp only [← State.readBits_eq_fieldSum]
  unfold pseudoRdbytes
  split
  case isTrue hshort =>
    obtain ⟨t, ht, hrun⟩ := run_issueField_fits (isRead_rdu _ _ (widthOperand_toNat (by omega))) (by omega) hin hfit
    refine ⟨t, hrun.trans ?_, ht.bitpos, ht.base, ht.len, ht.fm⟩
    rw [Requester.run, List.map_congr_left fun j hj => s.stringByte_readBits _ hshort (List.mem_range.mp hj)]
  case isFalse =>
    obtain ⟨t, ht, hrun⟩ := run_issueRepeat_fits (isRead_rdu 8 8 rfl) (by decide) n hin hfit
    refine ⟨t, hrun.trans ?_, ht.bitpos, ht.base, ht.len, ht.fm⟩
    simp only [Requester.run, List.map_map, Function.comp_def, setWidth_zext64]

/-! ## Skipping -/

/-- Discarded fields that fit leave the rest of the list to a cursor behind them. -/
theorem run_discardFields_append (ws rest : List Nat) {s : State} (hws : ∀ w ∈ ws, 1 ≤ w ∧ w ≤ 64)
    (hin : s.windowInside) (hfit : s.bitpos.toNat + ws.sum ≤ 8 * s.len.toNat) :
    ∃ t, s.AdvancedBy t ws.sum ∧ (discardFields (ws ++ rest)).run s = (discardFields rest).run t := by
  induction ws generalizing s with
  | nil => exact ⟨s, .refl s, rfl⟩
  | cons w ws ih =>
    obtain ⟨hw, hws⟩ := List.forall_mem_cons.mp hws
    rw [List.sum_cons] at hfit ⊢
    obtain ⟨u, hu, hfirst⟩ :=
      run_issueField_fits (field := "SKIP") (isRead_rdu _ _ (widthOperand_toNat hw.2)) hw hin (by omega)
    obtain ⟨t, ht, hrest⟩ := ih hws (hu.windowInside hin) (hu.fits hfit)
    exact ⟨t, hu.trans ht, hfirst.trans hrest⟩

theorem skipWidths_legal {n w : Nat} (h : w ∈ skipWidths n) : 1 ≤ w ∧ w ≤ 64 := by
  rw [skipWidths, List.mem_append] at h
  rcases h with h | h
  · have h := List.eq_of_mem_replicate h
    omega
  · split at h
    · cases h
    · have h := List.mem_singleton.mp h
      omega

theorem sum_skipWidths (n : Nat) : (skipWidths n).sum = n := by
  rw [skipWidths, List.sum_append, List.sum_replicate, smul_eq_mul]
  split
  · rw [List.sum_nil]
    omega
  · rw [List.sum_singleton]
    omega

/-- Of the reads of `SKIP n`, the whole 64-bit ones that `m < n` bits hold come first, and the next one does not fit. -/
theorem skipWidths_eq_append {m n : Nat} (h : m < n) :
    ∃ w rest, skipWidths n = List.replicate (m / 64) 64 ++ w :: rest ∧ m < 64 * (m / 64) + w := by
  by_cases hlt : m / 64 < n / 64
  · obtain ⟨d, hd⟩ := Nat.exists_eq_add_of_lt hlt
    rw [skipWidths, hd, Nat.add_assoc, List.replicate_add, List.append_assoc, List.replicate_succ, List.cons_append]
    exact ⟨64, _, rfl, by omega⟩
  · have heq : n / 64 = m / 64 := by omega
    have hne : n % 64 ≠ 0 := by omega
    rw [skipWidths, heq, if_neg hne]
    exact ⟨n % 64, [], rfl, by omega⟩

/-- Settles O48: the reads that fit move the cursor by their sum, and the first that does not stops the sequence there. -/
theorem skipMovesTheCursor : Obligations.SkipMovesTheCursor := by
  intro s n hinv _ rem
  obtain ⟨_, hin, hcur, _⟩ := hinv
  by_cases hfit : n ≤ rem
  · obtain ⟨t, ht, hrun⟩ := run_discardFields_append (skipWidths n) [] (fun w => skipWidths_legal) hin
      (by rw [sum_skipWidths]; omega)
    rw [sum_skipWidths] at ht
    rw [List.append_nil] at hrun
    exact ⟨t, ht.base, ht.len, ht.fm, fun _ => ⟨hrun, ht.bitpos⟩, fun hshort => absurd hfit (Nat.not_le.mpr hshort)⟩
  · obtain ⟨w, rest, hwidths, hnext⟩ := skipWidths_eq_append (Nat.not_le.mp hfit)
    have hlegal (x : Nat) (hx : x ∈ List.replicate (rem / 64) 64 ++ w :: rest) : 1 ≤ x ∧ x ≤ 64 :=
      skipWidths_legal (hwidths ▸ hx)
    have hsum : (List.replicate (rem / 64) 64).sum = 64 * (rem / 64) := by
      rw [List.sum_replicate, smul_eq_mul, Nat.mul_comm]
    obtain ⟨t, ht, hrun⟩ := run_discardFields_append (List.replicate (rem / 64) 64) (w :: rest)
      (fun x hx => hlegal x (List.mem_append_left _ hx)) hin (by rw [hsum]; omega)
    rw [hsum] at ht
    have hw := hlegal w (List.mem_append_right _ List.mem_cons_self)
    rw [← hwidths] at hrun
    refine ⟨t.respond .bounds, ht.base, ht.len, ht.fm, fun h => absurd h hfit, fun _ => ⟨hrun.trans ?_, ht.bitpos⟩⟩
    refine run_issueField_short (isRead_rdu _ _ (widthOperand_toNat hw.2)) hw ?_
    rw [ht.len, ht.bitpos]
    omega

end Sys2Proof.Machine
end

section
/-! PROOFS. Reads from the first bit of a window just bound: `TYPECODE` (R82) and the header of a frame (R86). -/

namespace Sys2Proof.Machine

/-- A requester goes on from the first bit of the window it has bound (R65). -/
theorem run_issueField_bind {α : Type} {field : String} {k : Value → Requester (DecodeResult α)} {s : State}
    {base len : Operand} (hrange : base.toNat + len.toNat ≤ s.cfg.fmSize) :
    ∃ b, CursorBound base len b ∧ b.windowInside ∧ b.fm = s.fm ∧
      (issueField field (.bind base len) k).run s = (k 0).run b :=
  ⟨(s.bindWindow base len).respond (.ok 0), ⟨rfl, rfl, rfl⟩, hrange, rfl, run_issueField_ok (exec_bind_inside hrange)⟩

/-- The first 12 bits of the window are its first byte and the top half of the second (R42). -/
theorem State.readBits_twelve (s : State) :
    s.readBits 0 12 = 16 * (s.fmByte s.base.toNat).toNat + (s.fmByte (s.base.toNat + 1)).toNat / 16 := by
  have hbyte : s.readBits 0 8 = (s.fmByte s.base.toNat).toNat := s.readBits_byte 0
  have hhalf : s.readBits 8 4 = (s.fmByte (s.base.toNat + 1)).toNat / 16 := s.readBits_byte_top 1 (by decide)
  rw [s.readBits_add 0 8 4, hbyte, hhalf]
  omega

/-- Settles O49: a window of one byte or none holds fewer than 12 bits. -/
theorem typecodeIsTheFirstTwelveBits : Obligations.TypecodeIsTheFirstTwelveBits := by
  intro s base len hrange
  obtain ⟨b, hb, hin, hfm, hbind⟩ := run_issueField_bind hrange
  rw [pseudoTypecode, hbind]
  have hpos : b.bitpos.toNat = 0 := congrArg BitVec.toNat hb.bitpos
  have hlen : b.len.toNat = len.toNat := congrArg BitVec.toNat hb.len
  by_cases hfits : 2 ≤ len.toNat
  · obtain ⟨t, ht, hrun⟩ := run_issueField_fits (isRead_rdu 12 12 rfl) (by decide) hin (by omega)
    refine ⟨t, ht.base.trans hb.base, ht.len.trans hb.len, ht.fm.trans hfm,
      fun _ => ⟨_, hrun, ?value, ?range, by rw [ht.bitpos, hpos]⟩, fun h => absurd hfits (Nat.not_le.mpr h)⟩
    case value =>
      rw [zext64_readBits_toNat _ _ (by decide), hpos, State.readBits_twelve, hb.base]
      simp only [State.fmByte_of_fm hfm]
    case range =>
      rw [zext64_readBits_toNat _ _ (by decide)]
      exact Nat.le_of_lt_succ (b.readBits_lt _ 12)
  · exact ⟨b.respond .bounds, hb.base, hb.len, hfm, fun h => absurd h hfits, fun _ =>
      ⟨run_issueField_short (isRead_rdu 12 12 rfl) (by decide) (by omega), hpos⟩⟩

/-- The three fields of a frame header by its bytes (R41): the second byte holds the reserved bits and the top of the length. -/
theorem State.readBits_frameHeader (s : State) :
    s.readBits 0 8 = (s.fmByte s.base.toNat).toNat ∧
    s.readBits 8 6 = (s.fmByte (s.base.toNat + 1)).toNat / 4 ∧
    s.readBits 14 10 = (s.fmByte (s.base.toNat + 1)).toNat % 4 * 256 + (s.fmByte (s.base.toNat + 2)).toNat := by
  have hreserved : s.readBits 8 6 = (s.fmByte (s.base.toNat + 1)).toNat / 4 := s.readBits_byte_top 1 (by decide)
  have hsecond : s.readBits 8 8 = (s.fmByte (s.base.toNat + 1)).toNat := s.readBits_byte 1
  have hthird : s.readBits 16 8 = (s.fmByte (s.base.toNat + 2)).toNat := s.readBits_byte 2
  have hcut : s.readBits 8 6 * 2 ^ 10 + s.readBits 14 10 = s.readBits 8 8 * 2 ^ 8 + s.readBits 16 8 :=
    (s.readBits_add 8 6 10).symm.trans (s.readBits_add 8 8 8)
  exact ⟨s.readBits_byte 0, hreserved, by omega⟩

/-- Settles O53: each read starts where the one before it ended. -/
theorem frameHeaderIsReadByTheCursor : Obligations.FrameHeaderIsReadByTheCursor := by
  intro s f hrange
  obtain ⟨b, hb, hin, hfm, hbind⟩ := run_issueField_bind (len := 3) hrange
  have hpos : b.bitpos.toNat = 0 := congrArg BitVec.toNat hb.bitpos
  have hlen : b.len.toNat = 3 := congrArg BitVec.toNat hb.len
  obtain ⟨t₁, h₁, hmarker⟩ := run_issueField_fits (isRead_rdu 8 8 rfl) (by decide) hin (by omega)
  obtain ⟨t₂, h₂, hreserved⟩ :=
    run_issueField_fits (isRead_rdu 6 6 rfl) (by decide) (h₁.windowInside hin) (h₁.fits (by omega))
  have h₁₂ := h₁.trans h₂
  obtain ⟨t₃, h₃, hlength⟩ :=
    run_issueField_fits (isRead_rdu 10 10 rfl) (by decide) (h₁₂.windowInside hin) (h₁₂.fits (by omega))
  have hall := h₁₂.trans h₃
  obtain ⟨hfirst, hsecond, hthird⟩ := b.readBits_frameHeader
  simp only [hb.base, State.fmByte_of_fm hfm] at hfirst hsecond hthird
  refine ⟨t₃, _, _, _, hbind.trans (hmarker.trans (hreserved.trans hlength)), ?_, ?_, ?_, hall.base.trans hb.base,
    by rw [hall.bitpos, hpos], hall.fm.trans hfm⟩
  all_goals rw [zext64_readBits_toNat _ _ (by decide)]
  · rw [hpos, hfirst]
  · rw [h₁.readBits, h₁.bitpos, hpos, hsecond]
  · rw [h₁₂.readBits, h₁₂.bitpos, hpos, hthird]

end Sys2Proof.Machine
end

section
/-! PROOFS. `FIELDS` (R83) and the mask-driven decode (R84, C2). -/

namespace Sys2Proof.Machine

/-! ## A list of field specs -/

theorem fieldsWidth_cons (f : FieldSpec) (fs : List FieldSpec) :
    fieldsWidth (f :: fs) = f.widthBits.toNat + fieldsWidth fs := rfl

/-- Fields that fit are stored under their names and leave the rest of the list to a cursor behind them. -/
theorem run_readFields_append {α : Type} (before rest : List FieldSpec)
    {k : List (String × Value) → Requester (DecodeResult α)} {s : State}
    (hwidths : ∀ f ∈ before, 1 ≤ f.widthBits.toNat ∧ f.widthBits.toNat ≤ 64) (hin : s.windowInside)
    (hfit : s.bitpos.toNat + fieldsWidth before ≤ 8 * s.len.toNat) :
    ∃ t vs, s.AdvancedBy t (fieldsWidth before) ∧ vs.map Prod.fst = before.map FieldSpec.name ∧
      (readFields (before ++ rest) k).run s = (readFields rest fun ws => k (vs ++ ws)).run t := by
  induction before generalizing k s with
  | nil => exact ⟨s, [], .refl s, rfl, rfl⟩
  | cons f fs ih =>
    obtain ⟨hf, hfs⟩ := List.forall_mem_cons.mp hwidths
    rw [fieldsWidth_cons] at hfit ⊢
    obtain ⟨u, hu, hfirst⟩ := run_issueField_fits (field := f.name) f.isRead_command hf hin (by omega)
    obtain ⟨t, vs, ht, hnames, hrest⟩ := ih hfs (hu.windowInside hin) (hu.fits hfit)
    exact ⟨t, (f.name, _) :: vs, hu.trans ht, congrArg (f.name :: ·) hnames, hfirst.trans hrest⟩

/-- Fields too wide for `rem` bits have a first one that does not fit. -/
theorem exists_first_field_too_wide (desc : List FieldSpec) {rem : Nat} (h : rem < fieldsWidth desc) :
    ∃ before f after, desc = before ++ f :: after ∧ fieldsWidth before ≤ rem ∧
      rem < fieldsWidth before + f.widthBits.toNat := by
  induction desc generalizing rem with
  | nil => cases h
  | cons f fs ih =>
    rw [fieldsWidth_cons] at h
    by_cases hf : f.widthBits.toNat ≤ rem
    · obtain ⟨before, g, after, rfl, hbefore, hg⟩ := ih (rem := rem - f.widthBits.toNat) (by omega)
      refine ⟨f :: before, g, after, rfl, ?_, ?_⟩ <;> rw [fieldsWidth_cons] <;> omega
    · exact ⟨[], f, fs, rfl, Nat.zero_le _, by simpa [fieldsWidth] using Nat.not_le.mp hf⟩

/-- Settles O50: the fields that fit come first, and the next one ends the decode. -/
theorem fieldsConsumeTheirWidths : Obligations.FieldsConsumeTheirWidths := by
  intro s desc hinv hwidths rem
  obtain ⟨_, hin, hcur, _⟩ := hinv
  refine ⟨fun hfit => ?fits, fun hshort => ?short⟩
  case fits =>
    obtain ⟨t, vs, ht, hnames, hrun⟩ := run_readFields_append desc [] hwidths hin (by omega)
    rw [List.append_nil] at hrun
    exact ⟨t, vs ++ [], hrun, by rwa [List.append_nil], ht.bitpos⟩
  case short =>
    obtain ⟨before, f, after, rfl, hbefore, hf⟩ := exists_first_field_too_wide desc hshort
    obtain ⟨t, vs, ht, _, hrun⟩ := run_readFields_append before (f :: after)
      (fun g hg => hwidths g (List.mem_append_left _ hg)) hin (by omega)
    refine ⟨t.respond .bounds, before, after, f, rfl, hbefore, hf, hrun.trans ?_, ht.bitpos⟩
    refine run_issueField_short f.isRead_command (hwidths f (List.mem_append_right _ List.mem_cons_self)) ?_
    rw [ht.len, ht.bitpos]
    omega

/-! ## The parts of a mask-driven decode that ended in a record -/

theorem run_readFields_record {α : Type} (desc : List FieldSpec) {k : List (String × Value) → Requester (DecodeResult α)}
    {s t : State} {r : α} (h : (readFields desc k).run s = .next (t, .record r)) :
    ∃ u vs, s.AdvancedBy u (fieldsWidth desc) ∧ vs.map Prod.fst = desc.map FieldSpec.name ∧
      (k vs).run u = .next (t, .record r) := by
  induction desc generalizing k s with
  | nil => exact ⟨s, [], .refl s, rfl, h⟩
  | cons f fs ih =>
    obtain ⟨u₁, h₁, h⟩ := run_issueField_record f.isRead_command h
    obtain ⟨u₂, vs, h₂, hnames, h⟩ := ih h
    exact ⟨u₂, (f.name, _) :: vs, h₁.trans h₂, congrArg (f.name :: ·) hnames, h⟩

theorem run_readSatellites_record {α : Type} (n : Nat) {k : List SatelliteBlock → Requester (DecodeResult α)}
    {s t : State} {r : α} (h : (readSatellites n k).run s = .next (t, .record r)) :
    ∃ u blocks, s.AdvancedBy u (36 * n) ∧ blocks.length = n ∧ (k blocks).run u = .next (t, .record r) := by
  induction n generalizing k s with
  | zero => exact ⟨s, [], .refl s, rfl, h⟩
  | succ n ih =>
    obtain ⟨u₁, h₁, h⟩ := run_issueField_record (isRead_rdu 8 8 rfl) h
    obtain ⟨u₂, h₂, h⟩ := run_issueField_record (isRead_rdu 4 4 rfl) h
    obtain ⟨u₃, h₃, h⟩ := run_issueField_record (isRead_rdu 10 10 rfl) h
    obtain ⟨u₄, h₄, h⟩ := run_issueField_record (isRead_rdi 14 14 rfl) h
    obtain ⟨u, blocks, hu, hlen, h⟩ := ih h
    rw [Nat.mul_succ, Nat.add_comm]
    exact ⟨u, _ :: blocks, (((h₁.trans h₂).trans h₃).trans h₄).trans hu, congrArg (· + 1) hlen, h⟩

theorem run_readSignals_record {α : Type} (n : Nat) {k : List SignalBlock → Requester (DecodeResult α)}
    {s t : State} {r : α} (h : (readSignals n k).run s = .next (t, .record r)) :
    ∃ u blocks, s.AdvancedBy u (80 * n) ∧ blocks.length = n ∧ (k blocks).run u = .next (t, .record r) := by
  induction n generalizing k s with
  | zero => exact ⟨s, [], .refl s, rfl, h⟩
  | succ n ih =>
    obtain ⟨u₁, h₁, h⟩ := run_issueField_record (isRead_rdu 64 64 rfl) h
    obtain ⟨u₂, h₂, h⟩ := run_issueField_record (isRead_rdu 16 16 rfl) h
    obtain ⟨u, blocks, hu, hlen, h⟩ := ih h
    rw [Nat.mul_succ, Nat.add_comm]
    exact ⟨u, _ :: blocks, (h₁.trans h₂).trans hu, congrArg (· + 1) hlen, h⟩

/-- A mask of `w` bits has at most `w` set. -/
theorem popcount_le {mask : Value} {w : Nat} (h : mask.toNat < 2 ^ w) : popcount mask ≤ w := by
  have hsub : (List.range 64).filter (fun i => mask.getLsbD i) ⊆ List.range w := by
    intro i hi
    obtain ⟨_, hbit⟩ := List.mem_filter.mp hi
    exact List.mem_range.mpr ((Nat.pow_lt_pow_iff_right (by decide)).mp ((Nat.ge_two_pow_of_testBit hbit).trans_lt h))
  simpa [popcount] using ((List.nodup_range.filter _).subperm hsub).length_le

/-- Settles O51: the parts of the sequence one after another, each with the bits it has consumed. -/
theorem maskmsgConsumesExactly : Obligations.MaskmsgConsumesExactly := by
  intro s t hdr r _ h
  obtain ⟨u₁, header, h₁, hnames, h⟩ := run_readFields_record hdr h
  obtain ⟨u₂, h₂, h⟩ := run_issueField_record (isRead_rdu 64 64 rfl) h
  obtain ⟨u₃, h₃, h⟩ := run_issueField_record (isRead_rdu 32 32 rfl) h
  obtain ⟨u₄, cells, h₄, hcells, h⟩ := run_issueRepeat_record (isRead_rdu 1 1 rfl) _ h
  obtain ⟨u₅, satellites, h₅, hsatellites, h⟩ := run_readSatellites_record _ h
  obtain ⟨u₆, signals, h₆, hsignals, h⟩ := run_readSignals_record _ h
  cases h
  have hall := ((((h₁.trans h₂).trans h₃).trans h₄).trans h₅).trans h₆
  have hsignalMask := (zext64_readBits_toNat u₂ u₂.bitpos.toNat (w := 32) (by decide)).trans_lt (u₂.readBits_lt _ 32)
  refine ⟨hcells, hsatellites, hsignals, hnames, popcount_le (BitVec.isLt _), popcount_le hsignalMask, ?_⟩
  rw [hall.bitpos, Nat.one_mul]

end Sys2Proof.Machine
end

section
/-! PROOFS. One command, one status (R93): the order of the checks decides it, a failure leaves everything but its response
(R90, R94, R95), and a program of legal words never meets the first check. -/

namespace Sys2Proof.Machine

/-! ## What the status of a word says -/

/-- The word decodes to a read of `w` bits. -/
abbrev IsReadWord (fmSize : Nat) (cw : CmdWord) (w : Operand) : Prop :=
  decode fmSize cw = .legal (.rdu w) ∨ decode fmSize cw = .legal (.rdi w)

theorem isReadWord_iff_of_legal {fmSize : Nat} {cw : CmdWord} {i : Instr} (hdec : decode fmSize cw = .legal i)
    (w : Operand) : IsReadWord fmSize cw w ↔ i = .rdu w ∨ i = .rdi w := by
  rw [IsReadWord, hdec, Decoded.legal.injEq, Decoded.legal.injEq]

theorem IsReadWord.exists_instr {fmSize : Nat} {cw : CmdWord} {w : Operand} (h : IsReadWord fmSize cw w) :
    ∃ i, decode fmSize cw = .legal i ∧ (i = .rdu w ∨ i = .rdi w) :=
  h.elim (fun hdec => ⟨_, hdec, .inl rfl⟩) fun hdec => ⟨_, hdec, .inr rfl⟩

theorem instr?_ne_none_of_legal {fmSize : Nat} {cw : CmdWord} {i : Instr} (hdec : decode fmSize cw = .legal i) :
    (decode fmSize cw).instr? ≠ none := by
  rw [hdec]
  exact Option.some_ne_none i

theorem instr?_eq_none_of_illegal {fmSize : Nat} {cw : CmdWord} {why : IllegalWord}
    (hdec : decode fmSize cw = .illegal why) : (decode fmSize cw).instr? = none := by
  rw [hdec]
  rfl

theorem IsReadWord.instr?_ne_none {fmSize : Nat} {cw : CmdWord} {w : Operand} (h : IsReadWord fmSize cw w) :
    (decode fmSize cw).instr? ≠ none := by
  obtain ⟨_, hdec, _⟩ := h.exists_instr
  exact instr?_ne_none_of_legal hdec

theorem wellFormed_read {i : Instr} {w : Operand} (hi : i = .rdu w ∨ i = .rdi w) (fmSize : Nat) :
    i.wellFormed fmSize = legalWidth w := by
  rcases hi with rfl | rfl <;> rfl

/-- A read word of more bits than remain answers `BOUNDS` (R56): decode has already seen its width. -/
theorem runCommand_of_short_read {s : State} {cw : CmdWord} {w : Operand} (hread : IsReadWord s.cfg.fmSize cw w)
    (hshort : 8 * s.len.toNat - s.bitpos.toNat < w.toNat) : runCommand cw s = .next (s.respond .bounds) := by
  obtain ⟨i, hdec, hi⟩ := hread.exists_instr
  obtain ⟨hwf, _⟩ := fields_of_decode hdec
  obtain ⟨hw, hw'⟩ := (legalWidth_iff w).mp (wellFormed_read hi s.cfg.fmSize ▸ hwf)
  exact (runCommand_of_legal hdec).trans (exec_read_answers_bounds hi hw hw' hshort)

/-- The three endings of a word, each with the check that decided it, in the order of R93. -/
theorem runCommand_status {cw : CmdWord} {s t : State} (h : runCommand cw s = .next t) :
    ((decode s.cfg.fmSize cw).instr? = none ∧ t = s.respond .illegal) ∨
    (∃ w, IsReadWord s.cfg.fmSize cw w ∧ 8 * s.len.toNat - s.bitpos.toNat < w.toNat ∧ t = s.respond .bounds) ∨
    ((decode s.cfg.fmSize cw).instr? ≠ none ∧
      (∀ w, IsReadWord s.cfg.fmSize cw w → w.toNat ≤ 8 * s.len.toNat - s.bitpos.toNat) ∧
      ∃ v, t.responses = s.responses ++ [.ok v]) := by
  rcases runCommand_cases cw s with ⟨i, hdec, hrun⟩ | ⟨why, hdec, hrun⟩ <;> rw [hrun] at h
  · have hlegal := instr?_ne_none_of_legal hdec
    obtain ⟨hwf, _⟩ := fields_of_decode hdec
    simp only [isReadWord_iff_of_legal hdec]
    rcases exec_next h with ⟨_, hill⟩ | ⟨w, hi, _, hshort, rfl⟩ | ⟨w, v, hi, _, hfit, _, rfl⟩ | ⟨_, _, rfl, _, rfl⟩ |
      ⟨v, hi, rfl⟩
    · exact absurd hwf (by simp [hill])
    · exact .inr (.inl ⟨w, hi, hshort, rfl⟩)
    · refine .inr (.inr ⟨hlegal, fun w' hi' => ?_, v, rfl⟩)
      obtain rfl : w' = w := by rcases hi with rfl | rfl <;> simpa [eq_comm] using hi'
      exact hfit
    · exact .inr (.inr ⟨hlegal, by simp, 0, rfl⟩)
    · exact .inr (.inr ⟨hlegal, by rcases hi with rfl | ⟨_, _, rfl⟩ <;> simp, v, rfl⟩)
  · injection h with h
    exact .inl ⟨instr?_eq_none_of_illegal hdec, h.symm⟩

/-- A well-formed command inside the invariants always answers: the window it reads from lies in FM (R57). -/
theorem exec_total {i : Instr} {s : State} (hwf : i.wellFormed s.cfg.fmSize = true) (hin : s.windowInside)
    (hcur : s.cursorInside) : ∃ t, exec i s = .next t := by
  have read {w : Operand} (hi : i = .rdu w ∨ i = .rdi w) : ∃ t, exec i s = .next t := by
    obtain ⟨hw, hw'⟩ := (legalWidth_iff w).mp (wellFormed_read hi s.cfg.fmSize ▸ hwf)
    obtain ⟨t, _, hexec, _⟩ := exec_legal_read hi hw hw' hin hcur
    exact ⟨t, hexec⟩
  cases i with
  | rdu w => exact read (.inl rfl)
  | rdi w => exact read (.inr rfl)
  | bind base len => exact ⟨_, exec_bind_inside ((legalWindow_iff _ _ _).mp hwf)⟩
  | pos => exact ⟨_, exec_pos s⟩
  | chk base n => exact ⟨_, exec_chk_inside ((legalCover_iff _ _ _).mp hwf)⟩

theorem runCommand_total (cw : CmdWord) {s : State} (hin : s.windowInside) (hcur : s.cursorInside) :
    ∃ t, runCommand cw s = .next t := by
  rcases runCommand_cases cw s with ⟨i, hdec, hrun⟩ | ⟨_, _, hrun⟩ <;> rw [hrun]
  · obtain ⟨hwf, _⟩ := fields_of_decode hdec
    exact exec_total hwf hin hcur
  · exact ⟨_, rfl⟩

theorem Response.isOk_iff (r : Response) : (∃ v, r = .ok v) ↔ r ≠ .illegal ∧ r ≠ .bounds := by
  cases r <;> simp

/-! ## One word -/

/-- Settles O37: a command inside the invariants answers, and each of its three endings fixes which checks failed. -/
theorem oneCommandGivesOneStatus : Obligations.OneCommandGivesOneStatus := by
  intro s cw hinv
  obtain ⟨_, hin, hcur, _⟩ := hinv
  obtain ⟨t, hrun⟩ := runCommand_total cw hin hcur
  rcases runCommand_status hrun with ⟨hnone, rfl⟩ | ⟨w, hread, hshort, rfl⟩ | ⟨hsome, hfit, v, hresp⟩
  · exact ⟨_, .illegal, hrun, rfl, iff_of_true rfl hnone,
      iff_of_false nofun fun ⟨_, hread, _⟩ => IsReadWord.instr?_ne_none hread hnone, Response.isOk_iff _⟩
  · exact ⟨_, .bounds, hrun, rfl, iff_of_false nofun hread.instr?_ne_none, iff_of_true rfl ⟨w, hread, hshort⟩,
      Response.isOk_iff _⟩
  · exact ⟨t, .ok v, hrun, hresp, iff_of_false nofun hsome,
      iff_of_false nofun fun ⟨w, hread, hshort⟩ => Nat.not_lt.mpr (hfit w hread) hshort, Response.isOk_iff _⟩

/-- Settles O38: both failures are decided by the word, `LEN` and `BITPOS`, which another memory leaves as they are. -/
theorem failuresArePrecise : Obligations.FailuresArePrecise := by
  intro s t cw r hrun hresp hfailed
  rcases runCommand_status hrun with ⟨hnone, rfl⟩ | ⟨w, hread, hshort, rfl⟩ | ⟨_, _, v, hok⟩
  · exact ⟨by rw [← hresp]; rfl, fun m => runCommand_of_illegal (s := { s with fm := m }) hnone⟩
  · exact ⟨by rw [← hresp]; rfl, fun m => runCommand_of_short_read (s := { s with fm := m }) hread hshort⟩
  · obtain rfl : r = .ok v := by simpa using hresp.symm.trans hok
    exact absurd rfl hfailed

/-- Settles O9: decode sees no byte of FM. -/
theorem stepAnswersIllegalWords : Obligations.StepAnswersIllegalWords :=
  ⟨rfl, fun s _ rest _ hin hdec m => (step_of_command (s := { s with fm := m }) hin).trans
    (runCommand_of_illegal (s := { s with fm := m, inputs := rest }) (instr?_eq_none_of_illegal hdec))⟩

/-- Settles O12: the other steps take an event. -/
theorem stepIdle : Obligations.StepIdle := by
  intro s hin
  rcases step_cases s with ⟨_, hstep⟩ | ⟨_, _, hcons, _⟩ | ⟨_, _, _, hcons, _⟩ | ⟨_, _, hcons, _⟩
  · exact hstep
  · cases hin.symm.trans hcons
  · cases hin.symm.trans hcons
  · cases hin.symm.trans hcons

/-! ## Runs -/

theorem step_of_short_read {s : State} {cw : CmdWord} {w : Operand} {rest : List Event}
    (hin : s.inputs = .command cw :: rest) (hread : IsReadWord s.cfg.fmSize cw w)
    (hshort : 8 * s.len.toNat - s.bitpos.toNat < w.toNat) :
    step s = .next (({ s with inputs := rest } : State).respond .bounds) :=
  (step_of_command hin).trans (runCommand_of_short_read (s := { s with inputs := rest }) hread hshort)

/-- Settles O39: each `BOUNDS` leaves the cursor the next word is checked against. -/
theorem repeatedBoundsLeaveTheState : Obligations.RepeatedBoundsLeaveTheState := by
  intro n
  induction n with
  | zero =>
    intro s cw w rest _ _ hin
    obtain rfl : s.inputs = rest := hin
    rw [List.replicate_zero, List.append_nil]
    rfl
  | succ n ih =>
    intro s cw w rest hread hshort hin
    rw [List.replicate_succ, List.cons_append] at hin
    rw [run_succ_of_step n (step_of_short_read hin hread hshort), List.replicate_succ, ← List.singleton_append,
      ← List.append_assoc]
    exact ih _ cw w rest hread hshort rfl

/-- What every step keeps holds after a run. -/
theorem run_keeps {P : State → Prop} (hkeeps : ∀ s t, P s → step s = .next t → P t) (k : Nat) {s t : State}
    (hs : P s) (hrun : Sys2Proof.core.run k s = .next t) : P t := by
  induction k generalizing s with
  | zero =>
    cases hrun
    exact hs
  | succ k ih =>
    obtain ⟨u, hstep, hrest⟩ := run_succ_next hrun
    exact ih (hkeeps s u hs hstep) hrest

theorem noIllegal_append_singleton (rs : List Response) (r : Response) :
    noIllegal (rs ++ [r]) = true ↔ noIllegal rs = true ∧ r ≠ .illegal := by
  simp [noIllegal]

/-- Every pending command word is legal (R90). -/
def State.PendingLegal (s : State) : Prop :=
  ∀ cw, Event.command cw ∈ s.inputs → (decode s.cfg.fmSize cw).instr? ≠ none

theorem step_keeps_pendingLegal {s t : State} (hpending : s.PendingLegal) (h : step s = .next t) : t.PendingLegal := by
  intro cw hcw
  rw [step_cfg h]
  exact hpending cw (step_inputs_subset h hcw)

/-- A legal word is answered `BOUNDS` or `OK`, and no other event is answered. -/
theorem step_keeps_noIllegal {s t : State} (hpending : s.PendingLegal) (hclean : noIllegal s.responses = true)
    (h : step s = .next t) : noIllegal t.responses = true := by
  rcases step_next h with rfl | ⟨cw, rest, hin, hrun⟩ | ⟨_, _, _, _, _, rfl⟩ | ⟨_, _, _, rfl⟩
  · exact hclean
  · rcases runCommand_status hrun with ⟨hnone, _⟩ | ⟨_, _, _, rfl⟩ | ⟨_, _, v, hresp⟩
    · exact absurd hnone (hpending cw (hin ▸ List.mem_cons_self))
    · exact (noIllegal_append_singleton _ _).mpr ⟨hclean, nofun⟩
    · rw [hresp]
      exact (noIllegal_append_singleton _ _).mpr ⟨hclean, nofun⟩
  · exact hclean
  · exact hclean

/-- Settles O46: a step keeps the pending words legal and the responses free of `ILLEGAL`. -/
theorem legalProgramsSeeNoIllegal : Obligations.LegalProgramsSeeNoIllegal := by
  intro k s t hclean hpending hrun
  obtain ⟨_, hclean'⟩ := run_keeps (P := fun u => u.PendingLegal ∧ noIllegal u.responses = true)
    (fun _ _ ⟨hp, hc⟩ hstep => ⟨step_keeps_pendingLegal hp hstep, step_keeps_noIllegal hp hc hstep⟩) k
    ⟨hpending, hclean⟩ hrun
  exact hclean'

end Sys2Proof.Machine
end

section
/-! PROOFS. The move `RESET` (R102), and the requester that decodes only a frame whose check has passed (R104, R109). -/

namespace Sys2Proof.Machine

/-! ## Reset -/

theorem step_of_reset {s : State} {inFlight : Option CmdWord} {rest : List Event}
    (hin : s.inputs = .reset inFlight :: rest) :
    step s = .next (({ s with inputs := rest } : State).hostReset inFlight) := by
  simp only [step, nextEvent, hin, handleEvent]

/-- Settles O11: the state `RESET` leaves does not depend on the word in flight. -/
theorem stepReset : Obligations.StepReset := fun _ _ _ hin => step_of_reset hin

/-! ## Check first, then bind and decode -/

/-- A decode that ends in a record got `OK` from the command it issued first, and went on with the value (R87). -/
theorem run_issueField_record_ok {α : Type} {field : String} {i : Instr} {k : Value → Requester (DecodeResult α)}
    {s t : State} {r : α} (h : (issueField field i k).run s = .next (t, .record r)) :
    ∃ u v, exec i s = .next u ∧ u.lastResponse = .ok v ∧ (k v).run u = .next (t, .record r) := by
  rw [issueField, Requester.run] at h
  cases hexec : exec i s with
  | fault | refused => simp only [hexec, reduceCtorEq] at h
  | next u =>
    cases hlast : u.lastResponse with
    | bounds | illegal => simp [hexec, hlast, Requester.run] at h
    | ok v => exact ⟨u, v, rfl, hlast, by simpa only [hexec, hlast] using h⟩

/-- A `CHK` that answers `OK` changes nothing but the port, and its value is one of the two verdicts (R71). -/
theorem exec_chk_ok {s u : State} {base n : Operand} {v : Value} (h : exec (.chk base n) s = .next u)
    (hlast : u.lastResponse = .ok v) : u = s.respond (.ok v) ∧ (v = 1 ∨ v = 0) := by
  rw [exec_chk] at h
  split at h
  case isTrue =>
    cases h
    cases (State.respond_lastResponse _ _).symm.trans hlast
    exact ⟨rfl, ite_eq_or_eq _ _ _⟩
  case isFalse =>
    cases h
    cases (State.respond_lastResponse _ _).symm.trans hlast

/-- Past a `BIND`, a list of fields that ends in a record ends in the record of its values. -/
theorem run_bind_readFields_record {field : String} {base len : Operand} {desc : List FieldSpec} {s t : State}
    {r : Option (List (String × Value))}
    (h : (issueField field (.bind base len) fun _ => readFields desc fun vs => .done (.record (some vs))).run s =
      .next (t, .record r)) : r.isSome = true := by
  obtain ⟨u, _, _, _, hfields⟩ := run_issueField_record_ok h
  obtain ⟨w, vs, _, _, hdone⟩ := run_readFields_record desc hfields
  cases hdone
  rfl

/-- Settles O54: the verdict 1 leads on to `BIND` and a record, the verdict 0 ends the sequence at once. -/
theorem onlyCheckedFramesAreDecoded : Obligations.OnlyCheckedFramesAreDecoded := by
  intro s t f payloadLength desc r h
  obtain ⟨u, v, hchk, hlast, h⟩ := run_issueField_record_ok h
  obtain ⟨rfl, rfl | rfl⟩ := exec_chk_ok hchk hlast
  · have hsome : r.isSome = true := run_bind_readFields_record (by simpa only [if_pos] using h)
    exact ⟨iff_of_true hsome hchk, fun hnone => by simp [hnone] at hsome⟩
  · cases h
    have hnotOne : exec (.chk f (payloadLength.setWidth 12 + 3)) s ≠ .next (s.respond (.ok 1)) := by
      rw [hchk]
      simp [State.respond]
    exact ⟨iff_of_false Bool.false_ne_true hnotOne, fun _ => rfl⟩

end Sys2Proof.Machine
end

section
/-! PROOFS. A command whose operands no legal word has (R48, R49): it answers `ILLEGAL`, and so does the word its operands pack
into, since no other command has that word. -/

namespace Sys2Proof.Machine

open Sys2Proof.Laws.EncodedFields (opcodeOf operandA operandB)

/-- The opcode tells the command, the fields `A` and `B` its operands (R45, R47). -/
theorem eq_of_fields {i j : Instr} (hop : opcodeOf i = opcodeOf j) (ha : operandA i = operandA j)
    (hb : operandB i = operandB j) : i = j := by
  match i, j, hop with
  | .rdu _, .rdu _, _ => exact congrArg Instr.rdu hb
  | .rdi _, .rdi _, _ => exact congrArg Instr.rdi hb
  | .bind _ _, .bind _ _, _ => exact congrArg₂ Instr.bind ha hb
  | .pos, .pos, _ => rfl
  | .chk _ _, .chk _ _, _ => exact congrArg₂ Instr.chk ha hb

/-- No two commands share a word, whether their operands are legal or not. -/
theorem encode_injective : Function.Injective encode := by
  intro i j hword
  have hi := encode_hasFieldsOf i
  have hj := encode_hasFieldsOf j
  rw [← hword] at hj
  exact eq_of_fields (hi.op.symm.trans hj.op) (hi.a.symm.trans hj.a) (hi.b.symm.trans hj.b)

/-- A legal word is the word of a well-formed command, which the ill-formed one is not. -/
theorem decode_encode_of_illFormed {fmSize : Nat} {i : Instr} (hill : i.wellFormed fmSize = false) :
    (decode fmSize (encode i)).instr? = none := by
  cases hdec : decode fmSize (encode i) with
  | illegal why => rfl
  | legal j =>
    obtain ⟨hwf, hword⟩ := encodeOfDecode fmSize (encode i) j hdec
    obtain rfl := encode_injective hword
    exact absurd hwf (Bool.eq_false_iff.mp hill)

/-- Each command checks its operands first (R93; log entry 12). -/
theorem exec_of_illFormed {s : State} {i : Instr} (hill : i.wellFormed s.cfg.fmSize = false) :
    exec i s = .next (s.respond .illegal) := by
  have hfails := Bool.eq_false_iff.mp hill
  cases i with
  | rdu w => exact (exec_rdu w s).trans (if_neg hfails)
  | rdi w => exact (exec_rdi w s).trans (if_neg hfails)
  | bind base len => exact (exec_bind base len s).trans (if_neg hfails)
  | pos => exact absurd rfl hfails
  | chk base n => exact (exec_chk base n s).trans (if_neg hfails)

/-- Settles O25: the command and its word fail the same operand check. -/
theorem illFormedCommandsAnswerIllegal : Obligations.IllFormedCommandsAnswerIllegal := fun _ _ hill =>
  have hnone := decode_encode_of_illFormed hill
  ⟨exec_of_illFormed hill, hnone, runCommand_of_illegal hnone⟩

end Sys2Proof.Machine
end
